-- ==== Sys2Proof/Word.lean ====
section
/-! DEFINITION. The value types of the machine: bytes, 16-bit words, 12-bit operands, and the indexes of
registers and keys (00_scope.md R5, R6, R9, R14: every value is unsigned). -/

namespace Sys2Proof

/-- `u8`: a memory cell, a general register, a timer, an immediate NN (00_scope.md R5, R6, R8). -/
abbrev Byte := BitVec 8

/-- `u16`: an instruction word, the program counter, the index register, a stack slot (00_scope.md R6, R7). -/
abbrev Word := BitVec 16

/-- `u12`: the operand NNN (00_scope.md R14, R16). -/
abbrev Addr12 := BitVec 12

/-- The index of a general register `V[0]` to `V[15]` (10_state.md R21). -/
abbrev Reg := Fin 16

/-- The index of a key, 0 to F (10_state.md R32). -/
abbrev Key := Fin 16

/-- `VF`, the register that doubles as the flag register (10_state.md R22). -/
abbrev VF : Reg := 15

end Sys2Proof
end

