-- ==== Sys2Proof/Config.lean ====
section
/-! DEFINITION. What an implementation fixes (00_scope.md R5 to R12) and the free values, which no proof can see.
The widths and counts of R5 to R9 stand in the types of Machine/State.lean. The parameter `FONT` (R10) is
`Sys2Proof.Machine.font` in Machine/Memory.lean. `TICK_RATE` (R8) is the host's and no rule depends on it. -/

namespace Sys2Proof.Config

/-- `MEM_SIZE`: the addresses are 0x000 to 0xFFF (00_scope.md R5). -/
@[simp] abbrev memSize : Nat := 4096

/-- `FETCH_LIMIT`: the last address an instruction can be fetched from (00_scope.md R11). -/
@[simp] abbrev fetchLimit : Nat := 0xFFE

/-- `PROGRAM_BASE`: where programs are loaded, and the program counter after reset (00_scope.md R11). -/
@[simp] abbrev programBase : Nat := 0x200

/-- `FONT_BASE` (00_scope.md R10). -/
@[simp] abbrev fontBase : Nat := 0x000

/-- `FONT_SIZE`: 16 glyphs of 5 bytes (00_scope.md R10). -/
@[simp] abbrev fontSize : Nat := 80

/-- `GLYPH_BYTES` (00_scope.md R10). -/
@[simp] abbrev glyphBytes : Nat := 5

/-- FREE VALUE `draw8()` of CXNN: the `k`-th byte the RNG oracle gives (00_scope.md R12, 42_alu.md R154,
92_eei_decisions.md D26, log entry 2). It has no body: a claim that holds, holds for every sequence of draws. -/
opaque randomByte : Nat → Byte

/-- FREE VALUE `any8()`: the final `VF` of a flag-writing ALU instruction with `x = 15`
(42_alu.md R141, 93_implementation_defined.md I1, log entry 3). It has no body. -/
opaque anyByte : Nat → Byte

end Sys2Proof.Config
end

