-- ==== Sys2Proof/Syntax.lean ====
section
/-! DEFINITION. The instructions: one constructor per row of spec/opcode_table.json (30_encoding.md R74), in the
table's order. An operand has exactly the width of its field (00_scope.md R16, 30_encoding.md R72). -/

namespace Sys2Proof

/-- The 34 instructions of 30_encoding.md R74. `x` and `y` are register indexes, `nn` the 8-bit immediate, `nnn` the
12-bit address or value, `n` the sprite height. -/
inductive Instr where
  /-- 00E0 `CLS`: clear the framebuffer (44_display.md R191). -/
  | cls
  /-- 00EE `RET`: return (41_control_flow.md R121). -/
  | ret
  /-- 1NNN `JP nnn`: jump (41_control_flow.md R122). -/
  | jp (nnn : Addr12)
  /-- 2NNN `CALL nnn`: call (41_control_flow.md R123). -/
  | call (nnn : Addr12)
  /-- 3XNN `SE Vx, nn`: skip if equal to the immediate (41_control_flow.md R124). -/
  | seImm (x : Reg) (nn : Byte)
  /-- 4XNN `SNE Vx, nn`: skip if not equal to the immediate (41_control_flow.md R125). -/
  | sneImm (x : Reg) (nn : Byte)
  /-- 5XY0 `SE Vx, Vy`: skip if the registers are equal (41_control_flow.md R126). -/
  | seReg (x y : Reg)
  /-- 6XNN `LD Vx, nn`: load immediate (42_alu.md R142). -/
  | ldImm (x : Reg) (nn : Byte)
  /-- 7XNN `ADD Vx, nn`: add immediate (42_alu.md R143). -/
  | addImm (x : Reg) (nn : Byte)
  /-- 8XY0 `LD Vx, Vy`: copy (42_alu.md R144). -/
  | ldReg (x y : Reg)
  /-- 8XY1 `OR Vx, Vy` (42_alu.md R145). -/
  | orReg (x y : Reg)
  /-- 8XY2 `AND Vx, Vy` (42_alu.md R146). -/
  | andReg (x y : Reg)
  /-- 8XY3 `XOR Vx, Vy` (42_alu.md R147). -/
  | xorReg (x y : Reg)
  /-- 8XY4 `ADD Vx, Vy`: add with carry out (42_alu.md R149). -/
  | addReg (x y : Reg)
  /-- 8XY5 `SUB Vx, Vy`: `V[x] - V[y]` (42_alu.md R150). -/
  | sub (x y : Reg)
  /-- 8XY6 `SHR Vx`: shift right by one; `y` is encoded but not read (42_alu.md R151). -/
  | shr (x y : Reg)
  /-- 8XY7 `SUBN Vx, Vy`: `V[y] - V[x]` (42_alu.md R152). -/
  | subn (x y : Reg)
  /-- 8XYE `SHL Vx`: shift left by one; `y` is encoded but not read (42_alu.md R153). -/
  | shl (x y : Reg)
  /-- 9XY0 `SNE Vx, Vy`: skip if the registers differ (41_control_flow.md R127). -/
  | sneReg (x y : Reg)
  /-- ANNN `LD I, nnn`: set the index register (43_index_memory.md R170). -/
  | ldI (nnn : Addr12)
  /-- BNNN `JP V0, nnn`: jump with offset (41_control_flow.md R128). -/
  | jpV0 (nnn : Addr12)
  /-- CXNN `RND Vx, nn`: random byte under mask (42_alu.md R154). -/
  | rnd (x : Reg) (nn : Byte)
  /-- DXYN `DRW Vx, Vy, n`: draw a sprite of `n` rows (44_display.md R192). -/
  | drw (x y : Reg) (n : Fin 16)
  /-- EX9E `SKP Vx`: skip if the key is pressed (45_timers_input.md R200). -/
  | skp (x : Reg)
  /-- EXA1 `SKNP Vx`: skip if the key is not pressed (45_timers_input.md R201). -/
  | sknp (x : Reg)
  /-- FX07 `LD Vx, DT`: read the delay timer (45_timers_input.md R202). -/
  | ldVxDT (x : Reg)
  /-- FX0A `LD Vx, K`: wait for a key press (45_timers_input.md R205). -/
  | ldVxK (x : Reg)
  /-- FX15 `LD DT, Vx`: set the delay timer (45_timers_input.md R203). -/
  | ldDTVx (x : Reg)
  /-- FX18 `LD ST, Vx`: set the sound timer (45_timers_input.md R204). -/
  | ldSTVx (x : Reg)
  /-- FX1E `ADD I, Vx`: add to the index register (43_index_memory.md R171). -/
  | addI (x : Reg)
  /-- FX29 `LD F, Vx`: point the index register at a font glyph (43_index_memory.md R172). -/
  | ldF (x : Reg)
  /-- FX33 `LD B, Vx`: store decimal digits (43_index_memory.md R173). -/
  | ldB (x : Reg)
  /-- FX55 `LD [I], Vx`: store registers 0 to X (43_index_memory.md R174). -/
  | stRegs (x : Reg)
  /-- FX65 `LD Vx, [I]`: load registers 0 to X (43_index_memory.md R175). -/
  | ldRegs (x : Reg)
  deriving DecidableEq, Repr

end Sys2Proof
end

