-- ==== Sys2Proof/WellFormed.lean ====
section
/-! DEFINITION. What must be checked of a term beyond its type. Every operand type of `Instr` holds exactly the values
of its field, and every value of every field is legal (30_encoding.md R72), so an instruction needs no further check.
A program image does: it must fit between 0x200 and 0xFFF (60_exceptions.md R240). -/

namespace Sys2Proof

/-- Every instruction term is well-formed: a register index is below 16, `nn` below 256, `nnn` below 4096 and `n` below
16 by type, and 30_encoding.md R72 makes every such value legal. -/
def Instr.wellFormed : Instr → Bool
  | .cls | .ret | .jp _ | .call _ | .seImm _ _ | .sneImm _ _ | .seReg _ _ | .ldImm _ _ | .addImm _ _ => true
  | .ldReg _ _ | .orReg _ _ | .andReg _ _ | .xorReg _ _ | .addReg _ _ | .sub _ _ | .shr _ _ => true
  | .subn _ _ | .shl _ _ | .sneReg _ _ | .ldI _ | .jpV0 _ | .rnd _ _ | .drw _ _ _ | .skp _ | .sknp _ => true
  | .ldVxDT _ | .ldVxK _ | .ldDTVx _ | .ldSTVx _ | .addI _ | .ldF _ | .ldB _ | .stRegs _ | .ldRegs _ => true

/-- A program image fits in memory: it is at most 3584 bytes long (60_exceptions.md R240). -/
def imageFits (image : List Byte) : Bool :=
  image.length ≤ Config.memSize - Config.programBase

end Sys2Proof
end

