-- ==== Sys2Proof/Decode.lean ====
section
/-! DEFINITION. The opcode map (30_encoding.md R74), the decoder, total on every list of bytes and rejecting by name, and
the encoder, each written from the spec's patterns. -/

namespace Sys2Proof

/-- Why a list of bytes is no instruction. -/
inductive DecodeError where
  /-- The word matches no row of the opcode map (30_encoding.md R75). It is no fault: the step reports it and goes on. -/
  | unknownOpcode (op : Word)
  /-- Fewer than the two bytes of an instruction (30_encoding.md R70). The machine's fetch always has two. -/
  | truncated
  deriving DecidableEq, Repr

/-- One row of the opcode map: `(op & mask) = value` is the row's exact bit test (30_encoding.md R74). -/
structure OpcodeRow where
  pattern  : String
  mnemonic : String
  mask     : Word
  value    : Word
  deriving DecidableEq, Repr

/-- A word passes a row's bit test (30_encoding.md R73, R74). -/
def OpcodeRow.accepts (row : OpcodeRow) (op : Word) : Bool :=
  op &&& row.mask == row.value

/-- The opcode map's row of each instruction (30_encoding.md R74). -/
def Instr.row : Instr → OpcodeRow
  | .cls => ⟨"00E0", "CLS", 0xFFFF, 0x00E0⟩
  | .ret => ⟨"00EE", "RET", 0xFFFF, 0x00EE⟩
  | .jp _ => ⟨"1NNN", "JP", 0xF000, 0x1000⟩
  | .call _ => ⟨"2NNN", "CALL", 0xF000, 0x2000⟩
  | .seImm _ _ => ⟨"3XNN", "SE", 0xF000, 0x3000⟩
  | .sneImm _ _ => ⟨"4XNN", "SNE", 0xF000, 0x4000⟩
  | .seReg _ _ => ⟨"5XY0", "SE", 0xF00F, 0x5000⟩
  | .ldImm _ _ => ⟨"6XNN", "LD", 0xF000, 0x6000⟩
  | .addImm _ _ => ⟨"7XNN", "ADD", 0xF000, 0x7000⟩
  | .ldReg _ _ => ⟨"8XY0", "LD", 0xF00F, 0x8000⟩
  | .orReg _ _ => ⟨"8XY1", "OR", 0xF00F, 0x8001⟩
  | .andReg _ _ => ⟨"8XY2", "AND", 0xF00F, 0x8002⟩
  | .xorReg _ _ => ⟨"8XY3", "XOR", 0xF00F, 0x8003⟩
  | .addReg _ _ => ⟨"8XY4", "ADD", 0xF00F, 0x8004⟩
  | .sub _ _ => ⟨"8XY5", "SUB", 0xF00F, 0x8005⟩
  | .shr _ _ => ⟨"8XY6", "SHR", 0xF00F, 0x8006⟩
  | .subn _ _ => ⟨"8XY7", "SUBN", 0xF00F, 0x8007⟩
  | .shl _ _ => ⟨"8XYE", "SHL", 0xF00F, 0x800E⟩
  | .sneReg _ _ => ⟨"9XY0", "SNE", 0xF00F, 0x9000⟩
  | .ldI _ => ⟨"ANNN", "LD", 0xF000, 0xA000⟩
  | .jpV0 _ => ⟨"BNNN", "JP", 0xF000, 0xB000⟩
  | .rnd _ _ => ⟨"CXNN", "RND", 0xF000, 0xC000⟩
  | .drw _ _ _ => ⟨"DXYN", "DRW", 0xF000, 0xD000⟩
  | .skp _ => ⟨"EX9E", "SKP", 0xF0FF, 0xE09E⟩
  | .sknp _ => ⟨"EXA1", "SKNP", 0xF0FF, 0xE0A1⟩
  | .ldVxDT _ => ⟨"FX07", "LD", 0xF0FF, 0xF007⟩
  | .ldVxK _ => ⟨"FX0A", "LD", 0xF0FF, 0xF00A⟩
  | .ldDTVx _ => ⟨"FX15", "LD", 0xF0FF, 0xF015⟩
  | .ldSTVx _ => ⟨"FX18", "LD", 0xF0FF, 0xF018⟩
  | .addI _ => ⟨"FX1E", "ADD", 0xF0FF, 0xF01E⟩
  | .ldF _ => ⟨"FX29", "LD", 0xF0FF, 0xF029⟩
  | .ldB _ => ⟨"FX33", "LD", 0xF0FF, 0xF033⟩
  | .stRegs _ => ⟨"FX55", "LD", 0xF0FF, 0xF055⟩
  | .ldRegs _ => ⟨"FX65", "LD", 0xF0FF, 0xF065⟩

/-- N1, the leading nibble (30_encoding.md R71). -/
def leadingNibble (op : Word) : BitVec 4 := op.extractLsb' 12 4

/-- N4, the trailing nibble (30_encoding.md R71). -/
def trailingNibble (op : Word) : BitVec 4 := op.extractLsb' 0 4

/-- The field `x` = bits 11..8 (00_scope.md R16). -/
def fieldX (op : Word) : Reg := (op.extractLsb' 8 4).toFin

/-- The field `y` = bits 7..4 (00_scope.md R16). -/
def fieldY (op : Word) : Reg := (op.extractLsb' 4 4).toFin

/-- The field `n` = bits 3..0 (00_scope.md R16). -/
def fieldN (op : Word) : Fin 16 := (op.extractLsb' 0 4).toFin

/-- The field `nn` = bits 7..0 (00_scope.md R16). -/
def fieldNN (op : Word) : Byte := op.extractLsb' 0 8

/-- The field `nnn` = bits 11..0 (00_scope.md R16). -/
def fieldNNN (op : Word) : Addr12 := op.extractLsb' 0 12

/-- Decode one word: by the leading nibble, then by the whole word for nibble 0, by N4 for 5, 8 and 9, and by the low byte
for E and F (30_encoding.md R73). A word that matches no row is unknown (R75). -/
def decodeWord (op : Word) : Except DecodeError Instr :=
  match leadingNibble op with
  | 0x0#4 =>
    match op with
    | 0x00E0#16 => .ok .cls
    | 0x00EE#16 => .ok .ret
    | _ => .error (.unknownOpcode op)
  | 0x1#4 => .ok (.jp (fieldNNN op))
  | 0x2#4 => .ok (.call (fieldNNN op))
  | 0x3#4 => .ok (.seImm (fieldX op) (fieldNN op))
  | 0x4#4 => .ok (.sneImm (fieldX op) (fieldNN op))
  | 0x5#4 =>
    match trailingNibble op with
    | 0x0#4 => .ok (.seReg (fieldX op) (fieldY op))
    | _ => .error (.unknownOpcode op)
  | 0x6#4 => .ok (.ldImm (fieldX op) (fieldNN op))
  | 0x7#4 => .ok (.addImm (fieldX op) (fieldNN op))
  | 0x8#4 =>
    match trailingNibble op with
    | 0x0#4 => .ok (.ldReg (fieldX op) (fieldY op))
    | 0x1#4 => .ok (.orReg (fieldX op) (fieldY op))
    | 0x2#4 => .ok (.andReg (fieldX op) (fieldY op))
    | 0x3#4 => .ok (.xorReg (fieldX op) (fieldY op))
    | 0x4#4 => .ok (.addReg (fieldX op) (fieldY op))
    | 0x5#4 => .ok (.sub (fieldX op) (fieldY op))
    | 0x6#4 => .ok (.shr (fieldX op) (fieldY op))
    | 0x7#4 => .ok (.subn (fieldX op) (fieldY op))
    | 0xE#4 => .ok (.shl (fieldX op) (fieldY op))
    | _ => .error (.unknownOpcode op)
  | 0x9#4 =>
    match trailingNibble op with
    | 0x0#4 => .ok (.sneReg (fieldX op) (fieldY op))
    | _ => .error (.unknownOpcode op)
  | 0xA#4 => .ok (.ldI (fieldNNN op))
  | 0xB#4 => .ok (.jpV0 (fieldNNN op))
  | 0xC#4 => .ok (.rnd (fieldX op) (fieldNN op))
  | 0xD#4 => .ok (.drw (fieldX op) (fieldY op) (fieldN op))
  | 0xE#4 =>
    match fieldNN op with
    | 0x9E#8 => .ok (.skp (fieldX op))
    | 0xA1#8 => .ok (.sknp (fieldX op))
    | _ => .error (.unknownOpcode op)
  | _ => -- the one leading nibble left: F
    match fieldNN op with
    | 0x07#8 => .ok (.ldVxDT (fieldX op))
    | 0x0A#8 => .ok (.ldVxK (fieldX op))
    | 0x15#8 => .ok (.ldDTVx (fieldX op))
    | 0x18#8 => .ok (.ldSTVx (fieldX op))
    | 0x1E#8 => .ok (.addI (fieldX op))
    | 0x29#8 => .ok (.ldF (fieldX op))
    | 0x33#8 => .ok (.ldB (fieldX op))
    | 0x55#8 => .ok (.stRegs (fieldX op))
    | 0x65#8 => .ok (.ldRegs (fieldX op))
    | _ => .error (.unknownOpcode op)

/-- The instruction word of two consecutive bytes, most significant byte first (20_memory.md R51, R52). -/
def wordOfBytes (hi lo : Byte) : Word := hi ++ lo

/-- Decode the instruction at the head of a list of bytes, and give the rest (30_encoding.md R70: always two bytes). -/
def decode : List Byte → Except DecodeError (Instr × List Byte)
  | hi :: lo :: rest =>
    match decodeWord (wordOfBytes hi lo) with
    | .ok i => .ok (i, rest)
    | .error e => .error e
  | _ => .error .truncated

/-- A 4-bit field holding an index. -/
def nibble (k : Fin 16) : BitVec 4 := BitVec.ofFin k

/-- The layout `N1 X Y N` of an instruction word (30_encoding.md R71). -/
def layoutXYN (lead : BitVec 4) (x y : Reg) (last : BitVec 4) : Word := lead ++ nibble x ++ nibble y ++ last

/-- The layout `N1 X NN` of an instruction word (30_encoding.md R71). -/
def layoutXNN (lead : BitVec 4) (x : Reg) (nn : Byte) : Word := lead ++ nibble x ++ nn

/-- The layout `N1 NNN` of an instruction word (30_encoding.md R71). -/
def layoutNNN (lead : BitVec 4) (nnn : Addr12) : Word := lead ++ nnn

/-- The word of an instruction, its fields laid out as the row's pattern says (30_encoding.md R71, R74). -/
def encode : Instr → Word
  | .cls => 0x00E0
  | .ret => 0x00EE
  | .jp nnn => layoutNNN 0x1 nnn
  | .call nnn => layoutNNN 0x2 nnn
  | .seImm x nn => layoutXNN 0x3 x nn
  | .sneImm x nn => layoutXNN 0x4 x nn
  | .seReg x y => layoutXYN 0x5 x y 0x0
  | .ldImm x nn => layoutXNN 0x6 x nn
  | .addImm x nn => layoutXNN 0x7 x nn
  | .ldReg x y => layoutXYN 0x8 x y 0x0
  | .orReg x y => layoutXYN 0x8 x y 0x1
  | .andReg x y => layoutXYN 0x8 x y 0x2
  | .xorReg x y => layoutXYN 0x8 x y 0x3
  | .addReg x y => layoutXYN 0x8 x y 0x4
  | .sub x y => layoutXYN 0x8 x y 0x5
  | .shr x y => layoutXYN 0x8 x y 0x6
  | .subn x y => layoutXYN 0x8 x y 0x7
  | .shl x y => layoutXYN 0x8 x y 0xE
  | .sneReg x y => layoutXYN 0x9 x y 0x0
  | .ldI nnn => layoutNNN 0xA nnn
  | .jpV0 nnn => layoutNNN 0xB nnn
  | .rnd x nn => layoutXNN 0xC x nn
  | .drw x y n => layoutXYN 0xD x y (nibble n)
  | .skp x => layoutXNN 0xE x 0x9E
  | .sknp x => layoutXNN 0xE x 0xA1
  | .ldVxDT x => layoutXNN 0xF x 0x07
  | .ldVxK x => layoutXNN 0xF x 0x0A
  | .ldDTVx x => layoutXNN 0xF x 0x15
  | .ldSTVx x => layoutXNN 0xF x 0x18
  | .addI x => layoutXNN 0xF x 0x1E
  | .ldF x => layoutXNN 0xF x 0x29
  | .ldB x => layoutXNN 0xF x 0x33
  | .stRegs x => layoutXNN 0xF x 0x55
  | .ldRegs x => layoutXNN 0xF x 0x65

/-- The high byte of a word, stored at the lower address (20_memory.md R52). -/
def highByte (op : Word) : Byte := op.extractLsb' 8 8

/-- The low byte of a word, stored at the higher address (20_memory.md R52). -/
def lowByte (op : Word) : Byte := op.extractLsb' 0 8

/-- An instruction's two bytes as memory holds them (20_memory.md R52). -/
def encodeBytes (i : Instr) : List Byte := [highByte (encode i), lowByte (encode i)]

/-- The word whose bits spec/opcode_table.json numbers as `w`, with `nbits` of them given: bit 0 is the least significant. -/
def tableWord (nbits w : Nat) : Word := BitVec.ofNat 16 (w % 2 ^ nbits)

/-- The instruction the decoder reads from the bytes of a table word, laid out as memory holds them. -/
def decodeTableWord (nbits w : Nat) : Option Instr :=
  match decode [highByte (tableWord nbits w), lowByte (tableWord nbits w)] with
  | .ok (i, _) => some i
  | .error _ => none

end Sys2Proof
end

