-- ==== Sys2Proof/Machine/State.lean ====
section
/-! DEFINITION. The state of the machine (10_state.md R20), all of it plain data, the reasons a step can stop, and the
state after reset (10_state.md R40). -/

namespace Sys2Proof.Machine

/-- The fatal conditions (60_exceptions.md R221). Raising one is the machine's own effect: `mode <- Halted(kind)` and
nothing else (R222, R224), so it is a NEXT state whose mode records the kind, and no step of this model answers
`Host.Outcome.fault` (log entry 5). Each is safe: the core stops executing where the spec says it stops. -/
inductive Fault where
  /-- Code 1. Raised by the fetch of any step with `pc > 0xFFE` (40_cycle.md R101). Safe: the spec's own condition. -/
  | fetchOutOfRange
  /-- Code 2. Raised by 2NNN with `sp = 16` (41_control_flow.md R123). Safe: the spec's own condition. -/
  | stackOverflow
  /-- Code 3. Raised by 00EE with `sp = 0` (41_control_flow.md R121). Safe: the spec's own condition. -/
  | stackUnderflow
  /-- Code 4. Raised by DXYN, FX33, FX55 and FX65 for a data address above 0xFFF (20_memory.md R55). Safe: the spec
  stops where an implementation might go on (92_eei_decisions.md D4, log entry 13). -/
  | memoryOutOfRange
  /-- Code 5. Raised by EX9E and EXA1 with `V[x] > 15` (45_timers_input.md R200, R201). Safe: the spec stops where an
  implementation might go on (92_eei_decisions.md D9, log entry 13). -/
  | keyIndexOutOfRange
  deriving DecidableEq, Repr

/-- The numeric code of a fatal condition (60_exceptions.md R221). -/
def Fault.code : Fault → Nat
  | .fetchOutOfRange => 1
  | .stackOverflow => 2
  | .stackUnderflow => 3
  | .memoryOutOfRange => 4
  | .keyIndexOutOfRange => 5

/-- Why something has no meaning in the model. No step refuses anything: the last two are refusals of the host's `load`. -/
inductive Refusal where
  /-- Raised by an arm of `exec` for an instruction that has no meaning yet: no arm is left so. Safe. -/
  | notModelled (mnemonic : String)
  /-- Raised by the host's `load` of an image longer than 3584 bytes, for which the spec has no transaction
  (60_exceptions.md R240, 92_eei_decisions.md D23, log entry 9). Safe: the model stops. -/
  | imageTooLong
  /-- Raised by the host's `load` after the first step, for which the spec has no transaction
  (60_exceptions.md R240, 92_eei_decisions.md D23, log entry 9). Safe: the model stops. -/
  | loadAfterFirstStep
  deriving DecidableEq, Repr

/-- The execution mode (10_state.md R34). -/
inductive Mode where
  | running
  /-- A FX0A has started and not completed; `x` is its destination register (45_timers_input.md R205). -/
  | awaitingKey (x : Reg)
  /-- A fatal condition stopped the core (60_exceptions.md R224). -/
  | halted (kind : Fault)
  deriving DecidableEq, Repr

/-- The result a step gives its caller (40_cycle.md R100). -/
inductive StepResult where
  | executed
  | waiting
  /-- The word `op` at `addr` matched no instruction (60_exceptions.md R228). -/
  | unknown (addr op : Word)
  | fault (kind : Fault)
  deriving DecidableEq, Repr

/-- Memory: the bytes that differ from what reset leaves, in rising order of address (20_memory.md R50; the canonical
form is `Memory.wf`). What an address that is not listed reads as is `resetByte` of Machine/Memory.lean. -/
abbrev Memory := List Host.Cell

/-- The framebuffer `fb[row][col]`, 32 rows of 64 pixels, `true` for set (10_state.md R31). -/
abbrev Framebuffer := Vector (Vector Bool 64) 32

/-- The whole state: the eleven components of 10_state.md R20 under the spec's names, the result the host's status read
gives (60_exceptions.md R235, R239), and the model's own counter of free values. -/
structure State where
  /-- Memory (10_state.md R20, 20_memory.md R50). -/
  mem    : Memory
  /-- The general registers `V[0]` to `V[15]` (10_state.md R21). -/
  V      : Vector Byte 16
  /-- The index register (10_state.md R24). -/
  I      : Word
  /-- The program counter (10_state.md R25). -/
  pc     : Word
  /-- The sixteen slots of the call stack (10_state.md R28). -/
  stack  : Vector Word 16
  /-- The stack pointer, 0 to 16: the number of live entries (10_state.md R28, R37). -/
  sp     : Fin 17
  /-- The delay timer (10_state.md R30). -/
  DT     : Byte
  /-- The sound timer (10_state.md R30). -/
  ST     : Byte
  /-- The framebuffer (10_state.md R31). -/
  fb     : Framebuffer
  /-- The key state, `true` for pressed (10_state.md R32). -/
  key    : Vector Bool 16
  /-- The execution mode (10_state.md R34). -/
  mode   : Mode
  /-- The last step's result, none before the first step (60_exceptions.md R235, R239; log entry 6). -/
  report : Option StepResult
  /-- DESIGN CHOICE (log entry 4): how many free values have been taken. The model's own, no state of the machine. -/
  draws  : Nat
  deriving DecidableEq, Repr

/-- The machine right after reset (10_state.md R40, 70_reset_and_hazards.md R250). Memory lists nothing: every address
reads as reset leaves it, the font included. -/
def State.reset : State where
  mem    := []
  V      := Vector.replicate 16 0
  I      := 0
  pc     := 0x200
  stack  := Vector.replicate 16 0
  sp     := 0
  DT     := 0
  ST     := 0
  fb     := Vector.replicate 32 (Vector.replicate 64 false)
  key    := Vector.replicate 16 false
  mode   := .running
  report := none
  draws  := 0

end Sys2Proof.Machine
end

