-- ==== Sys2Proof/Machine/Memory.lean ====
section
/-! DEFINITION. Memory: what reset leaves in it (`FONT`), its canonical form, and reading and writing one byte and a run of
bytes (20_memory.md R50 to R55). -/

namespace Sys2Proof.Machine

/-- `FONT`, the parameter of 00_scope.md R10 at its default, the table of 10_state.md R41: sixteen glyphs of five bytes,
top row first. PRESUMED: the byte values are general knowledge (92_eei_decisions.md D25, log entry 1), and a claim that
reads the font names this definition. -/
def font : List Byte :=
  [0xF0, 0x90, 0x90, 0x90, 0xF0] ++ [0x20, 0x60, 0x20, 0x20, 0x70] ++
  [0xF0, 0x10, 0xF0, 0x80, 0xF0] ++ [0xF0, 0x10, 0xF0, 0x10, 0xF0] ++
  [0x90, 0x90, 0xF0, 0x10, 0x10] ++ [0xF0, 0x80, 0xF0, 0x10, 0xF0] ++
  [0xF0, 0x80, 0xF0, 0x90, 0xF0] ++ [0xF0, 0x10, 0x20, 0x40, 0x40] ++
  [0xF0, 0x90, 0xF0, 0x90, 0xF0] ++ [0xF0, 0x90, 0xF0, 0x10, 0xF0] ++
  [0xF0, 0x90, 0xF0, 0x90, 0x90] ++ [0xE0, 0x90, 0xE0, 0x90, 0xE0] ++
  [0xF0, 0x80, 0x80, 0x80, 0xF0] ++ [0xE0, 0x90, 0x90, 0x90, 0xE0] ++
  [0xF0, 0x80, 0xF0, 0x80, 0xF0] ++ [0xF0, 0x80, 0xF0, 0x80, 0x80]

/-- What reset leaves at an address: the font at 0x000 to 0x04F, 0x00 elsewhere (10_state.md R40). This is what an
address that memory does not list reads as. -/
def resetByte (a : Nat) : Byte := font.getD (a - Config.fontBase) 0

/-- The byte at an address (20_memory.md R53). -/
def Memory.read : Memory → Nat → Byte
  | [], a => resetByte a
  | (c, v) :: m, a => if a = c then v else Memory.read m a

/-- Insert a cell in rising order of address. -/
def Memory.insert (cell : Host.Cell) : Memory → Memory
  | [] => [cell]
  | c :: m => if cell.1 < c.1 then cell :: c :: m else c :: Memory.insert cell m

/-- Set the byte at an address, and nothing else (20_memory.md R54). A byte set to what reset leaves is not listed, so
that equal memories are equal lists. -/
def Memory.write (m : Memory) (a : Nat) (v : Byte) : Memory :=
  let others := m.filter (fun c => c.1 ≠ a)
  if v = resetByte a then others else Memory.insert (a, v) others

/-- Every cell's address is at least `lo` and at most 0xFFF, the addresses rise strictly, and no cell holds what its address
reads as when it is not listed. -/
def Memory.wfFrom (lo : Nat) : Memory → Bool
  | [] => true
  | (a, v) :: m => decide (lo ≤ a) && decide (a < Config.memSize) && v != resetByte a && Memory.wfFrom (a + 1) m

/-- The canonical form of memory. -/
def Memory.wf (m : Memory) : Bool := m.wfFrom 0

/-- No address of the `n` bytes from `a` on is above 0xFFF (20_memory.md R55; `check(a, n - 1)` of 43_index_memory.md, and
no check where `n = 0`, 44_display.md R192). The sum is not truncated. -/
def inRange (a n : Nat) : Bool := n == 0 || decide (a + (n - 1) < Config.memSize)

/-- Read the `n` bytes from `a` on; an address above 0xFFF among them is `MemoryOutOfRange` (20_memory.md R53, R55). -/
def Memory.readBytes (m : Memory) (a n : Nat) : Except Fault (List Byte) :=
  if inRange a n then .ok ((List.range n).map fun k => m.read (a + k)) else .error .memoryOutOfRange

/-- Store bytes at `a`, `a + 1`, ... in that order, without a check. -/
def Memory.storeAll (m : Memory) (a : Nat) : List Byte → Memory
  | [] => m
  | v :: vs => Memory.storeAll (m.write a v) (a + 1) vs

/-- Write bytes from `a` on; an address above 0xFFF among them is `MemoryOutOfRange`, found before anything is written
(20_memory.md R54, R55). -/
def Memory.writeBytes (m : Memory) (a : Nat) (vs : List Byte) : Except Fault Memory :=
  if inRange a vs.length then .ok (m.storeAll a vs) else .error .memoryOutOfRange

end Sys2Proof.Machine
end

