-- ==== Sys2Proof/Machine/Ops.lean ====
section
/-! DEFINITION. The named operations over the state: one update per component, the call stack, fetching an instruction
word, raising a fatal condition, and reporting a step's result. -/

namespace Sys2Proof.Machine

/-- What a step or a meaning answers. -/
abbrev Result := Host.Outcome State Fault Refusal

/-- `V[x] <- v` (00_scope.md R15). -/
def State.setReg (s : State) (x : Reg) (v : Byte) : State := { s with V := s.V.set x v }

/-- All sixteen registers at once. -/
def State.setRegs (s : State) (V : Vector Byte 16) : State := { s with V := V }

/-- `I <- v`. -/
def State.setI (s : State) (v : Word) : State := { s with I := v }

/-- `pc <- v`. -/
def State.setPc (s : State) (v : Word) : State := { s with pc := v }

/-- `stack[j] <- v`. -/
def State.setSlot (s : State) (j : Fin 16) (v : Word) : State := { s with stack := s.stack.set j v }

/-- `sp <- v`. -/
def State.setSp (s : State) (v : Fin 17) : State := { s with sp := v }

/-- `DT <- v`. -/
def State.setDT (s : State) (v : Byte) : State := { s with DT := v }

/-- `ST <- v`. -/
def State.setST (s : State) (v : Byte) : State := { s with ST := v }

/-- Replace the framebuffer. -/
def State.setFb (s : State) (fb : Framebuffer) : State := { s with fb := fb }

/-- `key[k] <- pressed`. -/
def State.setKeyFlag (s : State) (k : Key) (pressed : Bool) : State := { s with key := s.key.set k pressed }

/-- `mode <- m`. -/
def State.setMode (s : State) (m : Mode) : State := { s with mode := m }

/-- Replace memory. -/
def State.setMem (s : State) (m : Memory) : State := { s with mem := m }

/-- Record a step's result for the host's status read (60_exceptions.md R239). -/
def State.setReport (s : State) (r : StepResult) : State := { s with report := some r }

/-- Count one free value as taken (log entry 4). -/
def State.nextDraw (s : State) : State := { s with draws := s.draws + 1 }

/-- `pc <- p + 2`: to the next instruction (40_cycle.md R104). -/
def State.advance (s : State) : State := s.setPc (s.pc + 2)

/-- Raise a fatal condition: the one write is `mode <- Halted(kind)` (60_exceptions.md R222, R224). -/
def raiseFatal (kind : Fault) (s : State) : Result := .next (s.setMode (.halted kind))

/-- End an instruction that may have raised a fatal condition: if it did, everything it would have written is discarded
(60_exceptions.md R222). `s` is the state before the instruction. -/
def finish (s : State) : Except Fault State → Result
  | .ok t => .next t
  | .error kind => raiseFatal kind s

/-- Push a return address; a full stack is `StackOverflow` (41_control_flow.md R123). -/
def push (s : State) (v : Word) : Except Fault State :=
  if h : s.sp.val < 16 then .ok ((s.setSlot ⟨s.sp.val, h⟩ v).setSp ⟨s.sp.val + 1, by omega⟩)
  else .error .stackOverflow

/-- Pop a return address: the address and the state with `sp` lowered, the slot's value kept; an empty stack is
`StackUnderflow` (41_control_flow.md R121, 10_state.md R29). -/
def pop (s : State) : Except Fault (Word × State) :=
  if h : 0 < s.sp.val then
    .ok (s.stack[s.sp.val - 1]'(by omega), s.setSp ⟨s.sp.val - 1, by omega⟩)
  else .error .stackUnderflow

/-- The instruction word at the program counter, high byte first; `FetchOutOfRange` if `pc > 0xFFE`
(20_memory.md R52, 40_cycle.md R101, R102). An odd `pc` is as good as an even one (10_state.md R26). -/
def fetch (s : State) : Except Fault Word :=
  if s.pc.toNat ≤ Config.fetchLimit then
    .ok (wordOfBytes (s.mem.read s.pc.toNat) (s.mem.read (s.pc.toNat + 1)))
  else .error .fetchOutOfRange

/-- The result of a step that ran an instruction or raised a fatal condition, from the mode it left (40_cycle.md R100,
R104; 60_exceptions.md R224). -/
def resultOfMode : Mode → StepResult
  | .running => .executed
  | .awaitingKey _ => .waiting
  | .halted kind => .fault kind

/-- Report the result of a step by the mode it left. -/
def State.reportMode (s : State) : State := s.setReport (resultOfMode s.mode)

/-- Report the result of what a step ran. -/
def reported : Result → Result
  | .next t => .next t.reportMode
  | .fault r => .fault r
  | .refused r => .refused r

/-- A word that is no instruction: report it with its address, and advance by 2 (40_cycle.md R108, 60_exceptions.md R228). -/
def skipUnknown (op : Word) (s : State) : Result := .next (s.advance.setReport (.unknown s.pc op))

/-- Place a word where the next step fetches its instruction: the core runs, at `pc`, or at 0x200 where no instruction can
be fetched at `pc`; everything the fetch does not need is unchanged (log entry 10). -/
def placeWord (s : State) (op : Word) : State :=
  let p := if s.pc.toNat ≤ Config.fetchLimit then s.pc else BitVec.ofNat 16 Config.programBase
  ((s.setPc p).setMode .running).setMem
    ((s.mem.write p.toNat (highByte op)).write (p.toNat + 1) (lowByte op))

end Sys2Proof.Machine
end

