-- ==== Sys2Proof/Machine/Operands.lean ====
section
/-! DEFINITION. The operand forms: a register `V[x]`, a zero-extended 12-bit operand, the data address `I + k`, the registers
0 to X as a run of bytes, the key a register names, and the skip condition (30_encoding.md R72, 43_index_memory.md R176,
41_control_flow.md R120). -/

namespace Sys2Proof.Machine

/-- `V[x]` (00_scope.md R15, R16). -/
def State.reg (s : State) (x : Reg) : Byte := s.V[x]

/-- `zext_16(nnn)` (00_scope.md R14, 30_encoding.md R72). -/
def zext12 (nnn : Addr12) : Word := nnn.setWidth 16

/-- `zext_16(v)` of a byte (00_scope.md R14). -/
def zext8 (v : Byte) : Word := v.setWidth 16

/-- `I` as the base of a data address: `I + k` is computed without truncation (43_index_memory.md). -/
def State.dataBase (s : State) : Nat := s.I.toNat

/-- `V[0]` to `V[x]`, the bytes FX55 stores (43_index_memory.md R174). -/
def regsUpTo (s : State) (x : Reg) : List Byte := s.V.toList.take (x.val + 1)

/-- `for k in 0 .. x: V[k] <- bytes[k]`, as FX65 loads (43_index_memory.md R175). -/
def loadRegs (V : Vector Byte 16) (x : Reg) (bytes : List Byte) : Vector Byte 16 :=
  Vector.ofFn fun k : Fin 16 => if k.val ≤ x.val then bytes.getD k.val 0 else V[k]

/-- Whether the key whose index is `V[x]` is pressed; `V[x] > 15` is `KeyIndexOutOfRange` (45_timers_input.md R200, R201). -/
def keyOfReg (s : State) (x : Reg) : Except Fault Bool :=
  if h : (s.reg x).toNat < 16 then .ok (s.key[(s.reg x).toNat]) else .error .keyIndexOutOfRange

/-- `skip_if(c)`: `pc <- p + 4` if `c`, else `pc <- p + 2` (41_control_flow.md R120). -/
def skipIf (s : State) (c : Bool) : State := s.setPc (s.pc + if c then 4 else 2)

end Sys2Proof.Machine
end

