-- ==== Sys2Proof/Machine/Flags.lean ====
section
/-! DEFINITION. The flag computations, all of them written to `VF` (10_state.md R36): carry, not borrow, the bit shifted
out, and how an ALU instruction writes its result and its flag (42_alu.md R141). -/

namespace Sys2Proof.Machine

/-- A flag as the byte `VF` takes: 1 or 0 (10_state.md R36). -/
def flagByte (c : Bool) : Byte := if c then 1 else 0

/-- Carry out of `a + b`: the unsigned sum exceeds 255 (42_alu.md R149). -/
def carryOut (a b : Byte) : Bool := decide (255 < a.toNat + b.toNat)

/-- No borrow in `a - b`: 0 if `a < b`, else 1 (42_alu.md R150, R152). -/
def notBorrow (a b : Byte) : Bool := !decide (a.toNat < b.toNat)

/-- The bit a right shift moves out, bit 0 (42_alu.md R151). -/
def lowBit (a : Byte) : Bool := a.getLsbD 0

/-- The bit a left shift moves out, bit 7 (42_alu.md R153). -/
def highBit (a : Byte) : Bool := a.getLsbD 7

/-- Write the result to `V[x]` and the flag to `VF`; where `x = 15` both target `VF`, and its final value is the free value
`any8()` (42_alu.md R141, R149 to R153; 93_implementation_defined.md I1). -/
def writeWithFlag (s : State) (x : Reg) (result : Byte) (flag : Bool) : State :=
  let t := (s.setReg x result).setReg VF (flagByte flag)
  if x = VF then (t.setReg VF (Config.anyByte s.draws)).nextDraw else t

end Sys2Proof.Machine
end

