-- ==== Sys2Proof/Machine/Alu.lean ====
section
/-! DEFINITION. Register loads and the ALU: 6XNN, 7XNN, 8XY0 to 8XYE, CXNN (42_alu.md). Each computes from the operands as
they were before it wrote anything (00_scope.md R17), and ends with `pc <- p + 2`. -/

namespace Sys2Proof.Machine

/-- 6XNN (42_alu.md R142). -/
def execLdImm (x : Reg) (nn : Byte) (s : State) : Result := .next (s.setReg x nn).advance

/-- 7XNN (42_alu.md R143): the sum is taken mod 256, and `VF` is no carry. -/
def execAddImm (x : Reg) (nn : Byte) (s : State) : Result := .next (s.setReg x (s.reg x + nn)).advance

/-- 8XY0 (42_alu.md R144). -/
def execLdReg (x y : Reg) (s : State) : Result := .next (s.setReg x (s.reg y)).advance

/-- 8XY1 (42_alu.md R145). -/
def execOr (x y : Reg) (s : State) : Result := .next (s.setReg x (s.reg x ||| s.reg y)).advance

/-- 8XY2 (42_alu.md R146). -/
def execAnd (x y : Reg) (s : State) : Result := .next (s.setReg x (s.reg x &&& s.reg y)).advance

/-- 8XY3 (42_alu.md R147). -/
def execXor (x y : Reg) (s : State) : Result := .next (s.setReg x (s.reg x ^^^ s.reg y)).advance

/-- 8XY4 (42_alu.md R149): `V[x] + V[y]`, carry out. -/
def execAddReg (x y : Reg) (s : State) : Result :=
  .next (writeWithFlag s x (s.reg x + s.reg y) (carryOut (s.reg x) (s.reg y))).advance

/-- 8XY5 (42_alu.md R150): `V[x] - V[y]`, not borrow. -/
def execSub (x y : Reg) (s : State) : Result :=
  .next (writeWithFlag s x (s.reg x - s.reg y) (notBorrow (s.reg x) (s.reg y))).advance

/-- 8XY6 (42_alu.md R151): `V[x] >> 1`, the bit shifted out. `V[y]` is not read (30_encoding.md R76). -/
def execShr (x _y : Reg) (s : State) : Result :=
  .next (writeWithFlag s x (s.reg x >>> 1) (lowBit (s.reg x))).advance

/-- 8XY7 (42_alu.md R152): `V[y] - V[x]`, not borrow. -/
def execSubn (x y : Reg) (s : State) : Result :=
  .next (writeWithFlag s x (s.reg y - s.reg x) (notBorrow (s.reg y) (s.reg x))).advance

/-- 8XYE (42_alu.md R153): `V[x] << 1`, the bit shifted out. `V[y]` is not read (30_encoding.md R76). -/
def execShl (x _y : Reg) (s : State) : Result :=
  .next (writeWithFlag s x (s.reg x <<< 1) (highBit (s.reg x))).advance

/-- CXNN (42_alu.md R154): the byte is a fresh draw of the oracle, the free value `Config.randomByte`. -/
def execRnd (x : Reg) (nn : Byte) (s : State) : Result :=
  .next (s.setReg x (Config.randomByte s.draws &&& nn)).nextDraw.advance

end Sys2Proof.Machine
end

