-- ==== Sys2Proof/Machine/Control.lean ====
section
/-! DEFINITION. Control transfer, stack and skips: 00EE, 1NNN, 2NNN, 3XNN, 4XNN, 5XY0, 9XY0, BNNN (41_control_flow.md). -/

namespace Sys2Proof.Machine

/-- 00EE (41_control_flow.md R121). The popped address is used as it is. -/
def execRet (s : State) : Result :=
  finish s <| match pop s with
    | .ok (a, t) => .ok (t.setPc a)
    | .error kind => .error kind

/-- 1NNN (41_control_flow.md R122). -/
def execJp (nnn : Addr12) (s : State) : Result := .next (s.setPc (zext12 nnn))

/-- 2NNN (41_control_flow.md R123). The pushed value is `p + 2`. -/
def execCall (nnn : Addr12) (s : State) : Result :=
  finish s <| match push s (s.pc + 2) with
    | .ok t => .ok (t.setPc (zext12 nnn))
    | .error kind => .error kind

/-- 3XNN (41_control_flow.md R124). -/
def execSeImm (x : Reg) (nn : Byte) (s : State) : Result := .next (skipIf s (s.reg x == nn))

/-- 4XNN (41_control_flow.md R125). -/
def execSneImm (x : Reg) (nn : Byte) (s : State) : Result := .next (skipIf s (s.reg x != nn))

/-- 5XY0 (41_control_flow.md R126). -/
def execSeReg (x y : Reg) (s : State) : Result := .next (skipIf s (s.reg x == s.reg y))

/-- 9XY0 (41_control_flow.md R127). -/
def execSneReg (x y : Reg) (s : State) : Result := .next (skipIf s (s.reg x != s.reg y))

/-- BNNN (41_control_flow.md R128). The register is always `V[0]`, and the 16-bit sum is not masked. -/
def execJpV0 (nnn : Addr12) (s : State) : Result := .next (s.setPc (zext12 nnn + zext8 (s.reg 0)))

end Sys2Proof.Machine
end

