-- ==== Sys2Proof/Machine/Display.lean ====
section
/-! DEFINITION. The framebuffer rasterizer and collision detector: 00E0, DXYN (44_display.md). -/

namespace Sys2Proof.Machine

/-- `fb[row][col]` (10_state.md R31). -/
def Framebuffer.pixel (fb : Framebuffer) (row : Fin 32) (col : Fin 64) : Bool := fb[row][col]

/-- `fb[row][col] <- b`. -/
def Framebuffer.setPixel (fb : Framebuffer) (row : Fin 32) (col : Fin 64) (b : Bool) : Framebuffer :=
  fb.set row (fb[row].set col b)

/-- Every pixel unset (44_display.md R191). -/
def Framebuffer.blank : Framebuffer := Vector.replicate 32 (Vector.replicate 64 false)

/-- 00E0 (44_display.md R191). -/
def execCls (s : State) : Result := .next (s.setFb Framebuffer.blank).advance

/-- A draw in progress: the framebuffer so far, and whether a pixel went from set to unset. -/
structure Drawing where
  fb      : Framebuffer
  collide : Bool
  deriving DecidableEq, Repr

/-- Column `c` of sprite row `r`, whose byte is `b`: a set bit 7 - c flips `fb[(y0 + r) mod 32][(x0 + c) mod 64]`, and
collides if that pixel was set (44_display.md R190, R192). Bit 7 is the leftmost pixel (PRESUMED,
92_eei_decisions.md D12, log entry 8). -/
def drawColumn (x0 y0 r : Nat) (b : Byte) (d : Drawing) (c : Nat) : Drawing :=
  if b.getLsbD (7 - c) then
    let row := Fin.ofNat 32 (y0 + r)
    let col := Fin.ofNat 64 (x0 + c)
    { fb := d.fb.setPixel row col (!d.fb.pixel row col), collide := d.collide || d.fb.pixel row col }
  else d

/-- Sprite row `r`: `for c in 0 .. 7` (44_display.md R192). -/
def drawRow (x0 y0 : Nat) (bytes : List Byte) (d : Drawing) (r : Nat) : Drawing :=
  (List.range 8).foldl (drawColumn x0 y0 r (bytes.getD r 0)) d

/-- A whole sprite: `for r in 0 .. n - 1`, the rows' bytes given (44_display.md R192). -/
def drawSprite (x0 y0 : Nat) (bytes : List Byte) (fb : Framebuffer) : Drawing :=
  (List.range bytes.length).foldl (drawRow x0 y0 bytes) { fb := fb, collide := false }

/-- DXYN (44_display.md R192). The coordinates are read before `VF` is written; the range check comes before any pixel
changes; `VF` is written on every draw, also where `n = 0`. -/
def execDrw (x y : Reg) (n : Fin 16) (s : State) : Result :=
  finish s <| match s.mem.readBytes s.dataBase n.val with
    | .ok bytes =>
      let d := drawSprite ((s.reg x).toNat % 64) ((s.reg y).toNat % 32) bytes s.fb
      .ok ((s.setFb d.fb).setReg VF (flagByte d.collide)).advance
    | .error kind => .error kind

end Sys2Proof.Machine
end

