-- ==== Sys2Proof/Machine/Index.lean ====
section
/-! DEFINITION. The index register and memory transfers: ANNN, FX1E, FX29, FX33, FX55, FX65 (43_index_memory.md). -/

namespace Sys2Proof.Machine

/-- ANNN (43_index_memory.md R170). -/
def execLdI (nnn : Addr12) (s : State) : Result := .next (s.setI (zext12 nnn)).advance

/-- FX1E (43_index_memory.md R171): the sum is kept to 16 bits, and no flag is written. -/
def execAddI (x : Reg) (s : State) : Result := .next (s.setI (s.I + zext8 (s.reg x))).advance

/-- The address of the glyph of a byte's low nibble (43_index_memory.md R172). -/
def glyphAddress (v : Byte) : Word :=
  BitVec.ofNat 16 (Config.fontBase + Config.glyphBytes * (v &&& 0x0F).toNat)

/-- FX29 (43_index_memory.md R172). -/
def execLdF (x : Reg) (s : State) : Result := .next (s.setI (glyphAddress (s.reg x))).advance

/-- The three decimal digits of a byte, most significant first (43_index_memory.md R173). -/
def decimalDigits (v : Byte) : List Byte :=
  [BitVec.ofNat 8 (v.toNat / 100), BitVec.ofNat 8 (v.toNat / 10 % 10), BitVec.ofNat 8 (v.toNat % 10)]

/-- Store bytes from `I` on and go to the next instruction; `I` is unchanged (43_index_memory.md R173, R174, R176). -/
def storeAtI (s : State) (bytes : List Byte) : Result :=
  finish s <| match s.mem.writeBytes s.dataBase bytes with
    | .ok m => .ok (s.setMem m).advance
    | .error kind => .error kind

/-- FX33 (43_index_memory.md R173). -/
def execLdB (x : Reg) (s : State) : Result := storeAtI s (decimalDigits (s.reg x))

/-- FX55 (43_index_memory.md R174). -/
def execStRegs (x : Reg) (s : State) : Result := storeAtI s (regsUpTo s x)

/-- FX65 (43_index_memory.md R175). -/
def execLdRegs (x : Reg) (s : State) : Result :=
  finish s <| match s.mem.readBytes s.dataBase (x.val + 1) with
    | .ok bytes => .ok (s.setRegs (loadRegs s.V x bytes)).advance
    | .error kind => .error kind

end Sys2Proof.Machine
end

