-- ==== Sys2Proof/Machine/TimersInput.lean ====
section
/-! DEFINITION. Key tests, key wait and timer access: EX9E, EXA1, FX07, FX15, FX18, FX0A (45_timers_input.md). The key
report that completes FX0A is `setKey` of Machine/HostInterface.lean. -/

namespace Sys2Proof.Machine

/-- EX9E (45_timers_input.md R200). -/
def execSkp (x : Reg) (s : State) : Result :=
  finish s <| match keyOfReg s x with
    | .ok pressed => .ok (skipIf s pressed)
    | .error kind => .error kind

/-- EXA1 (45_timers_input.md R201). -/
def execSknp (x : Reg) (s : State) : Result :=
  finish s <| match keyOfReg s x with
    | .ok pressed => .ok (skipIf s (!pressed))
    | .error kind => .error kind

/-- FX07 (45_timers_input.md R202). -/
def execLdVxDT (x : Reg) (s : State) : Result := .next (s.setReg x s.DT).advance

/-- FX0A, entering the wait: `mode <- AwaitingKey(x)`, and `pc` stays (45_timers_input.md R205). -/
def execLdVxK (x : Reg) (s : State) : Result := .next (s.setMode (.awaitingKey x))

/-- FX15 (45_timers_input.md R203). -/
def execLdDTVx (x : Reg) (s : State) : Result := .next (s.setDT (s.reg x)).advance

/-- FX18 (45_timers_input.md R204). -/
def execLdSTVx (x : Reg) (s : State) : Result := .next (s.setST (s.reg x)).advance

end Sys2Proof.Machine
end

