-- ==== Sys2Proof/Machine/Step.lean ====
section
/-! DEFINITION. The one operation that executes instructions (40_cycle.md R100), and where an instruction is placed so that
the next step runs it. Everything it does is an operation of Machine/Ops.lean, the decoder's or `exec`. -/

namespace Sys2Proof.Machine

/-- One step (40_cycle.md R101 to R108): a halted or waiting core changes nothing but says so; a running one fetches, decodes
and executes one instruction, and its result is reported. -/
def step (s : State) : Host.Outcome State Fault Refusal :=
  match s.mode with
  | .halted _ => .next s.reportMode
  | .awaitingKey _ => .next s.reportMode
  | .running =>
    match fetch s with
    | .error kind => reported (raiseFatal kind s)
    | .ok op =>
      match decodeWord op with
      | .error _ => skipUnknown op s
      | .ok i => reported (exec i s)

/-- The state with the instruction of a table word placed where the next step fetches it (log entry 10). -/
def State.withFetchWord (s : State) (nbits w : Nat) : State := placeWord s (tableWord nbits w)

end Sys2Proof.Machine
end

