-- ==== Sys2Proof/Machine/HostInterface.lean ====
section
/-! DEFINITION. The host's transactions, each performed between steps, and its reads (60_exceptions.md R235 to R240,
45_timers_input.md R206, 70_reset_and_hazards.md R250). Their order and number are the host's (20_memory.md R62). -/

namespace Sys2Proof.Machine

/-- `reset()`, allowed in every mode (70_reset_and_hazards.md R250, R251). Every component takes its reset value; the
counter of free values goes on, so that no draw after it repeats one before it (log entry 4). -/
def resetCore (s : State) : State := { State.reset with draws := s.draws }

/-- `load(image)`: copy the image to 0x200 onward, after reset and before the first step (60_exceptions.md R240). The spec
has no load of a longer image or a later one (92_eei_decisions.md D23): both are refused by name. -/
def load (image : List Byte) (s : State) : Result :=
  if s.report.isSome then .refused .loadAfterFirstStep
  else if imageFits image then .next (s.setMem (s.mem.storeAll Config.programBase image))
  else .refused .imageTooLong

/-- One countdown: down by 1 with a floor of 0 (60_exceptions.md R232). -/
def countDown (v : Byte) : Byte := if v = 0 then 0 else v - 1

/-- `tick()`, in every mode (60_exceptions.md R232). -/
def tick (s : State) : State := (s.setDT (countDown s.DT)).setST (countDown s.ST)

/-- `set_key(k, pressed)`: write one key flag; a new press while the core waits completes FX0A in the same transaction
(60_exceptions.md R236, 45_timers_input.md R206). -/
def setKey (k : Key) (pressed : Bool) (s : State) : State :=
  let t := s.setKeyFlag k pressed
  match s.mode with
  | .awaitingKey x =>
    if pressed && !s.key[k] then ((t.setReg x (BitVec.ofNat 8 k.val)).advance).setMode .running else t
  | .running => t
  | .halted _ => t

/-- The host's transactions that change the core (60_exceptions.md R235). -/
inductive Transaction where
  | reset
  | load (image : List Byte)
  | step
  | tick
  | setKey (k : Key) (pressed : Bool)
  deriving DecidableEq, Repr

/-- One transaction, atomic (20_memory.md R62). -/
def perform (t : Transaction) (s : State) : Result :=
  match t with
  | .reset => .next (resetCore s)
  | .load image => load image s
  | .step => step s
  | .tick => .next (tick s)
  | .setKey k pressed => .next (setKey k pressed s)

/-- A run: transactions in the order the host chose (20_memory.md R62, 60_exceptions.md R233). -/
def performAll : List Transaction → State → Result
  | [], s => .next s
  | t :: ts, s =>
    match perform t s with
    | .next s' => performAll ts s'
    | .fault r => .fault r
    | .refused r => .refused r

/-- The framebuffer read, row-major: `fb[row][col]` is entry `row * 64 + col` (60_exceptions.md R237, 10_state.md R31). -/
def framebufferRead (s : State) : List Bool := (s.fb.toList.map Vector.toList).flatten

/-- The sound-active read: `ST != 0` (60_exceptions.md R238). -/
def soundActive (s : State) : Bool := s.ST != 0

/-- The status read: the mode and the last step's result (60_exceptions.md R239). -/
def statusRead (s : State) : Mode × Option StepResult := (s.mode, s.report)

end Sys2Proof.Machine
end

