-- ==== Sys2Proof/Safety.lean ====
section
/-! DEFINITION. The terms claims are stated in: what an instruction may change, when it raises a fatal condition, where the
program counter goes, which pixels a sprite lands on, and the invariant of the machine. -/

namespace Sys2Proof.Machine

/-- What an instruction may change beside `pc`: the registers listed, the components marked, and the bytes of memory from
`stored.1` on, `stored.2` of them. -/
structure Changes where
  regs   : List Reg := []
  index  : Bool := false
  stack  : Bool := false
  delay  : Bool := false
  sound  : Bool := false
  frame  : Bool := false
  mode   : Bool := false
  draws  : Bool := false
  stored : Nat × Nat := (0, 0)
  deriving DecidableEq, Repr

/-- Everything outside `c` (and `pc`) is the same in `t` as in `s`: every register, `I`, the stack and `sp`, both timers, the
framebuffer, the mode, the counter of free values, and every byte of memory. The key state and the report never change. -/
def Frame (c : Changes) (s t : State) : Prop :=
  (∀ k : Reg, k ∉ c.regs → t.reg k = s.reg k) ∧
  (c.index = false → t.I = s.I) ∧
  (c.stack = false → t.stack = s.stack ∧ t.sp = s.sp) ∧
  (c.delay = false → t.DT = s.DT) ∧
  (c.sound = false → t.ST = s.ST) ∧
  (c.frame = false → t.fb = s.fb) ∧
  (c.mode = false → t.mode = s.mode) ∧
  (c.draws = false → t.draws = s.draws) ∧
  t.key = s.key ∧ t.report = s.report ∧
  (∀ a : Nat, ¬ (c.stored.1 ≤ a ∧ a < c.stored.1 + c.stored.2) → t.mem.read a = s.mem.read a)

/-- The fatal condition an instruction raises in a state, if it raises one (60_exceptions.md R221). -/
def fatalOf (i : Instr) (s : State) : Option Fault :=
  match i with
  | .ret => if s.sp.val = 0 then some .stackUnderflow else none
  | .call _ => if s.sp.val = 16 then some .stackOverflow else none
  | .drw _ _ n => if 0 < n.val ∧ 0xFFF < s.I.toNat + n.val - 1 then some .memoryOutOfRange else none
  | .ldB _ => if 0xFFF < s.I.toNat + 2 then some .memoryOutOfRange else none
  | .stRegs x => if 0xFFF < s.I.toNat + x.val then some .memoryOutOfRange else none
  | .ldRegs x => if 0xFFF < s.I.toNat + x.val then some .memoryOutOfRange else none
  | .skp x => if 15 < (s.reg x).toNat then some .keyIndexOutOfRange else none
  | .sknp x => if 15 < (s.reg x).toNat then some .keyIndexOutOfRange else none
  | .cls | .jp _ | .seImm _ _ | .sneImm _ _ | .seReg _ _ | .ldImm _ _ | .addImm _ _ | .ldReg _ _ => none
  | .orReg _ _ | .andReg _ _ | .xorReg _ _ | .addReg _ _ | .sub _ _ | .shr _ _ | .subn _ _ | .shl _ _ => none
  | .sneReg _ _ | .ldI _ | .jpV0 _ | .rnd _ _ | .ldVxDT _ | .ldVxK _ | .ldDTVx _ | .ldSTVx _ => none
  | .addI _ | .ldF _ => none

/-- `pc` after a conditional skip (40_cycle.md R110). -/
def afterSkip (p : Word) (taken : Bool) : Word := if taken then p + 4 else p + 2

/-- `pc` after an instruction that raises no fatal condition, the table of 40_cycle.md R110 (`p` is `s.pc`; of FX0A, while
it waits). -/
def nextPc (i : Instr) (s : State) : Word :=
  match i with
  | .ret => if h : 0 < s.sp.val then s.stack[s.sp.val - 1]'(by omega) else s.pc
  | .jp nnn => nnn.setWidth 16
  | .call nnn => nnn.setWidth 16
  | .seImm x nn => afterSkip s.pc (decide (s.reg x = nn))
  | .sneImm x nn => afterSkip s.pc (decide (s.reg x ≠ nn))
  | .seReg x y => afterSkip s.pc (decide (s.reg x = s.reg y))
  | .sneReg x y => afterSkip s.pc (decide (s.reg x ≠ s.reg y))
  | .skp x => afterSkip s.pc (s.key.toList.getD (s.reg x).toNat false)
  | .sknp x => afterSkip s.pc (!s.key.toList.getD (s.reg x).toNat false)
  | .jpV0 nnn => nnn.setWidth 16 + (s.reg 0).setWidth 16
  | .ldVxK _ => s.pc
  | .cls | .ldImm _ _ | .addImm _ _ | .ldReg _ _ | .orReg _ _ | .andReg _ _ | .xorReg _ _ | .addReg _ _ => s.pc + 2
  | .sub _ _ | .shr _ _ | .subn _ _ | .shl _ _ | .ldI _ | .rnd _ _ | .drw _ _ _ | .ldVxDT _ => s.pc + 2
  | .ldDTVx _ | .ldSTVx _ | .addI _ | .ldF _ | .ldB _ | .stRegs _ | .ldRegs _ => s.pc + 2

/-- A set bit of the sprite that DXYN draws in `s` lands on pixel `(row, col)`: row `r` of the sprite is the byte at
`I + r`, its column `c` is bit 7 - c, and the corner is `(V[x], V[y])`, wrapped (44_display.md R190). -/
def LandsOn (s : State) (x y : Reg) (n : Fin 16) (row : Fin 32) (col : Fin 64) : Prop :=
  ∃ r c : Nat, r < n.val ∧ c < 8 ∧ (s.mem.read (s.I.toNat + r)).getLsbD (7 - c) = true ∧
    row.val = ((s.reg y).toNat + r) % 32 ∧ col.val = ((s.reg x).toNat + c) % 64

/-- The invariant of the machine: memory is in its canonical form; `pc` is at most 0x10FE and every stack slot at most 0x1000
(10_state.md R27); a waiting core can fetch the FX0A it waits in and last reported `Waiting`; and the core is
`Halted(kind)` exactly when its last step reported `Fault(kind)` (60_exceptions.md R224, R225). -/
def State.Inv (s : State) : Prop :=
  s.mem.wf = true ∧
  s.pc.toNat ≤ 0x10FE ∧
  (∀ j : Fin 16, (s.stack[j]).toNat ≤ 0x1000) ∧
  (∀ x, s.mode = .awaitingKey x → s.pc.toNat ≤ 0xFFE ∧ s.report = some .waiting) ∧
  (∀ k, s.mode = .halted k ↔ s.report = some (.fault k))

/-- A safe state: no fatal condition has stopped the core (60_exceptions.md R224). -/
def State.Safe (s : State) : Prop := ∀ k, s.mode ≠ .halted k

end Sys2Proof.Machine
end

