-- ==== Sys2Proof/Certificates/Slice0/Obligations.lean ====
section
/-! DEFINITION. The statements for the provers. Each is about the machine: a rule of spec/, said of every state and every
operand it speaks of. -/

open Sys2Proof Sys2Proof.Machine

/-! ### Decoding and encoding (30_encoding.md) -/

/-- R70 to R74: the two bytes of a well-formed instruction, whatever follows them, decode to it. -/
def Obligations.DecodeOfEncodeGivesTheInstruction : Prop :=
  ∀ (i : Instr) (rest : List Byte), i.wellFormed = true → decode (encodeBytes i ++ rest) = .ok (i, rest)

/-- R72, R74, R76: a word that decodes is the encoding of what it decodes to, so no bit of it is dropped (the unread `y` of
8XY6 and 8XYE is kept as an operand). -/
def Obligations.EncodeOfDecodeGivesTheWord : Prop :=
  ∀ (w : Word) (i : Instr), decodeWord w = .ok i → encode i = w

/-- R73, R74: a word decodes to the row whose bit test it passes, only to that row, and no word passes two rows' tests. -/
def Obligations.WordDecodesToTheRowItMatches : Prop :=
  ∀ (w : Word) (i j : Instr),
    (i.row.accepts w = true → ∃ k, decodeWord w = .ok k ∧ k.row = i.row) ∧
    (decodeWord w = .ok i → i.row.accepts w = true) ∧
    (i.row.accepts w = true → j.row.accepts w = true → i.row = j.row)

/-- R75: the unknown words are exactly those of its table, one line per leading nibble, and each is named in the refusal. -/
def Obligations.UnknownWordsAreExactlyTheTables : Prop :=
  ∀ w : Word, decodeWord w = .error (.unknownOpcode w) ↔
    (w.toNat / 4096 = 0x0 ∧ w.toNat ≠ 0x00E0 ∧ w.toNat ≠ 0x00EE) ∨
    (w.toNat / 4096 = 0x5 ∧ w.toNat % 16 ≠ 0) ∨
    (w.toNat / 4096 = 0x8 ∧ w.toNat % 16 ∈ [0x8, 0x9, 0xA, 0xB, 0xC, 0xD, 0xF]) ∨
    (w.toNat / 4096 = 0x9 ∧ w.toNat % 16 ≠ 0) ∨
    (w.toNat / 4096 = 0xE ∧ w.toNat % 256 ∉ [0x9E, 0xA1]) ∨
    (w.toNat / 4096 = 0xF ∧ w.toNat % 256 ∉ [0x07, 0x0A, 0x15, 0x18, 0x1E, 0x29, 0x33, 0x55, 0x65])

/-- R71, R74: a few words written out from the patterns, one of each family, decode to what they stand for. -/
def Obligations.WrittenOutWordsDecode : Prop :=
  decode [0x22, 0x10] = .ok (.call 0x210, []) ∧
  decode [0x53, 0x40] = .ok (.seReg 3 4, []) ∧
  decode [0x83, 0x7E] = .ok (.shl 3 7, []) ∧
  decode [0xCA, 0x0F] = .ok (.rnd 10 0x0F, []) ∧
  decode [0xF1, 0x55] = .ok (.stRegs 1, []) ∧
  decode [0xD2, 0x3F] = .ok (.drw 2 3 15, []) ∧
  decode [0xE5, 0xA1] = .ok (.sknp 5, []) ∧
  decode [0xF3, 0x0A] = .ok (.ldVxK 3, []) ∧
  decode [0x51, 0x21] = .error (.unknownOpcode 0x5121)

/-! ### The step (40_cycle.md, 60_exceptions.md) -/

/-- R100, R102, R103, R104: in a running core, when the two bytes at `pc`, high byte first, decode to a well-formed
instruction, the step is that instruction's effect with its result reported: `Executed`, or `Waiting` where the core now
awaits a key, or `Fault(kind)` where it halted. -/
def Obligations.StepRunsTheDecodedInstruction : Prop :=
  ∀ (s t : State) (i : Instr), s.mode = .running → s.pc.toNat ≤ 0xFFE →
    decode [s.mem.read s.pc.toNat, s.mem.read (s.pc.toNat + 1)] = .ok (i, []) → i.wellFormed = true →
    exec i s = .next t →
    ∃ u, step s = .next u ∧ u = { t with report := u.report } ∧
      (t.mode = .running → u.report = some .executed) ∧
      (∀ x, t.mode = .awaitingKey x → u.report = some .waiting) ∧
      (∀ k, t.mode = .halted k → u.report = some (.fault k))

/-- R108, R228: a word that matches no row is reported with its address, `pc` advances by 2, and nothing else changes. -/
def Obligations.StepReportsAndSkipsUnknownWords : Prop :=
  ∀ (s : State) (op : Word), s.mode = .running → s.pc.toNat ≤ 0xFFE →
    op = s.mem.read s.pc.toNat ++ s.mem.read (s.pc.toNat + 1) → decodeWord op = .error (.unknownOpcode op) →
    ∃ t, step s = .next t ∧ t = { s with pc := s.pc + 2, report := some (.unknown s.pc op) }

/-- R101: a step with `pc > 0xFFE` writes nothing but the mode, keeps `pc`, and reports the fatal condition. -/
def Obligations.StepBeyondTheFetchLimitHalts : Prop :=
  ∀ s : State, s.mode = .running → 0xFFE < s.pc.toNat →
    ∃ t, step s = .next t ∧
      t = { s with mode := .halted .fetchOutOfRange, report := some (.fault .fetchOutOfRange) }

/-- R105: a step of a core that awaits a key changes nothing and reports `Waiting`. -/
def Obligations.StepWhileAwaitingChangesNothing : Prop :=
  ∀ (s : State) (x : Reg), s.mode = .awaitingKey x →
    ∃ t, step s = .next t ∧ t = { s with report := some .waiting }

/-- R106: a step of a halted core changes nothing and reports `Fault(kind)`; once it has, the state stays the same. -/
def Obligations.StepWhileHaltedChangesNothing : Prop :=
  ∀ (s : State) (k : Fault), s.mode = .halted k →
    ∃ t, step s = .next t ∧ t = { s with report := some (.fault k) } ∧ (s.report = some (.fault k) → t = s)

/-- R100: every step of every state answers a next state with a result; the model's step neither faults nor refuses
(that a fatal condition is a next state is the model's choice, log entry 5). -/
def Obligations.EveryStepAnswersAStateWithAResult : Prop :=
  ∀ s : State, ∃ t r, step s = .next t ∧ t.report = some r

/-- R221, R222, R224: an instruction raises exactly the fatal condition of R221's table, and then the mode is the one thing
written; otherwise it completes, and leaves the mode as it was unless it is FX0A. (Codes 4 and 5 and the precision of all
are the spec's own decisions D4, D9 and D16.) -/
def Obligations.FatalConditionsAreExactAndPrecise : Prop :=
  ∀ (i : Instr) (s : State),
    (∀ k, fatalOf i s = some k → exec i s = .next { s with mode := .halted k }) ∧
    (fatalOf i s = none → ∃ t, exec i s = .next t ∧
      (t.mode = s.mode ∨ ∃ x, i = .ldVxK x ∧ t.mode = .awaitingKey x))

/-- R104, R110: every instruction that raises no fatal condition completes, and `pc` goes where the table of R110 says. -/
def Obligations.EveryInstructionCompletesAtItsNextPc : Prop :=
  ∀ (i : Instr) (s : State), fatalOf i s = none → ∃ t, exec i s = .next t ∧ t.pc = nextPc i s

/-- R221, R223: a step halts a core that was not halted only by a fetch beyond 0xFFE or by an instruction whose fatal
condition holds, and the halt records that condition. -/
def Obligations.OnlyFatalConditionsHaltTheCore : Prop :=
  ∀ (s t : State) (k : Fault), s.Safe → step s = .next t → t.mode = .halted k →
    (0xFFE < s.pc.toNat ∧ k = .fetchOutOfRange) ∨
    (s.pc.toNat ≤ 0xFFE ∧ ∃ i, decodeWord (s.mem.read s.pc.toNat ++ s.mem.read (s.pc.toNat + 1)) = .ok i ∧
      fatalOf i s = some k)

/-- R225, R226: whatever the host does to a halted core short of a reset, it stays halted with the same kind, and registers,
`I`, `pc`, stack, framebuffer and memory stay as they are (timers and keys may change). -/
def Obligations.OnlyResetLeavesTheHalt : Prop :=
  ∀ (ts : List Transaction) (s t : State) (k : Fault), s.mode = .halted k → s.report = some (.fault k) →
    Transaction.reset ∉ ts → performAll ts s = .next t →
    t.mode = .halted k ∧ t.report = some (.fault k) ∧ t.V = s.V ∧ t.I = s.I ∧ t.pc = s.pc ∧ t.stack = s.stack ∧
      t.sp = s.sp ∧ t.fb = s.fb ∧ t.mem = s.mem

/-! ### Invariants -/

/-- R27, R224, R225: every step keeps the invariant: canonical memory, `pc` at most 0x10FE, return addresses at most 0x1000,
a waiting core able to refetch, and the halt and its report together. -/
def Obligations.StepKeepsTheInvariant : Prop :=
  ∀ s t : State, s.Inv → step s = .next t → t.Inv

/-- R40: the state after reset meets the invariant. -/
def Obligations.ResetMeetsTheInvariant : Prop := State.reset.Inv

/-- R62, R233: the invariant holds after every sequence of transactions the host may choose from a state that meets it; from
reset in particular. -/
def Obligations.InvariantHoldsForEveryInterleaving : Prop :=
  (∀ (ts : List Transaction) (s t : State), s.Inv → performAll ts s = .next t → t.Inv) ∧
  (∀ (ts : List Transaction) (t : State), performAll ts State.reset = .next t → t.Inv)

/-- R26: while `pc` and every return address are even, an instruction keeps them even unless its own jump, call or BNNN target
is odd. -/
def Obligations.EvenTargetsKeepPcEven : Prop :=
  ∀ (i : Instr) (s t : State), s.pc.toNat % 2 = 0 → (∀ j : Fin 16, (s.stack[j]).toNat % 2 = 0) →
    (∀ nnn, i = .jp nnn ∨ i = .call nnn → nnn.toNat % 2 = 0) →
    (∀ nnn, i = .jpV0 nnn → (nnn.toNat + (s.reg 0).toNat) % 2 = 0) →
    exec i s = .next t → t.pc.toNat % 2 = 0 ∧ ∀ j : Fin 16, (t.stack[j]).toNat % 2 = 0

/-! ### Who writes what (10_state.md) -/

/-- R57: only FX33 and FX55 change a byte of memory, and only the bytes from `I` on that R57's table gives them. -/
def Obligations.OnlyStoresWriteMemory : Prop :=
  ∀ (i : Instr) (s t : State) (a : Nat), exec i s = .next t → t.mem.read a ≠ s.mem.read a →
    s.I.toNat ≤ a ∧ a ≤ 0xFFF ∧
      ((∃ x, i = .ldB x ∧ a ≤ s.I.toNat + 2) ∨ (∃ x, i = .stRegs x ∧ a ≤ s.I.toNat + x.val))

/-- R28, R29: only CALL and RET change the stack or `sp`; RET changes no slot and CALL at most the slot at `sp`. (That RET
keeps the slot it pops is the spec's decision D14, log entry 20, unsafe for a claim about a slot at or above `sp`.) -/
def Obligations.OnlyCallAndReturnUseTheStack : Prop :=
  ∀ (i : Instr) (s t : State), exec i s = .next t →
    ((∀ nnn, i ≠ .call nnn) → t.stack = s.stack) ∧
    ((∀ nnn, i ≠ .call nnn) → i ≠ .ret → t.sp = s.sp) ∧
    (∀ j : Fin 16, j.val ≠ s.sp.val → t.stack[j] = s.stack[j])

/-- R30: no instruction but FX15 changes `DT`, none but FX18 changes `ST`; the key report and the load change neither. -/
def Obligations.TimersChangeOnlyByTheirWriters : Prop :=
  (∀ (i : Instr) (s t : State), exec i s = .next t →
    t.DT = (match i with | .ldDTVx x => s.reg x | _ => s.DT) ∧
    t.ST = (match i with | .ldSTVx x => s.reg x | _ => s.ST)) ∧
  (∀ (p : Transaction) (s t : State), perform p s = .next t → (t.DT ≠ s.DT ∨ t.ST ≠ s.ST) →
    p = .reset ∨ p = .tick ∨ (p = .step ∧ s.mode = .running))

/-- R31, R32: only 00E0 and DXYN change the framebuffer, and no step changes the key state. -/
def Obligations.FramebufferAndKeyWriters : Prop :=
  (∀ (i : Instr) (s t : State), exec i s = .next t → t.fb ≠ s.fb → i = .cls ∨ ∃ x y n, i = .drw x y n) ∧
  (∀ s t : State, step s = .next t → t.key = s.key)

/-- R24: only ANNN, FX1E and FX29 change `I`. -/
def Obligations.OnlyIndexInstructionsWriteI : Prop :=
  ∀ (i : Instr) (s t : State), exec i s = .next t → t.I ≠ s.I →
    (∃ nnn, i = .ldI nnn) ∨ (∃ x, i = .addI x) ∨ (∃ x, i = .ldF x)

/-- R22: `VF` changes only in the flag-writing instructions and where it is an instruction's ordinary destination. -/
def Obligations.VFChangesOnlyAsFlagOrDestination : Prop :=
  ∀ (i : Instr) (s t : State), exec i s = .next t → t.reg VF ≠ s.reg VF →
    (∃ x y, i = .addReg x y ∨ i = .sub x y ∨ i = .shr x y ∨ i = .subn x y ∨ i = .shl x y) ∨
    (∃ x y n, i = .drw x y n) ∨
    (∃ nn, i = .ldImm VF nn ∨ i = .addImm VF nn ∨ i = .rnd VF nn) ∨
    (∃ y, i = .ldReg VF y ∨ i = .orReg VF y ∨ i = .andReg VF y ∨ i = .xorReg VF y) ∨
    i = .ldVxDT VF ∨ i = .ldRegs VF

/-- R100, R239: the reported result is read by the host alone: an instruction does the same whatever was last reported. -/
def Obligations.ReportNeverInfluencesExecution : Prop :=
  ∀ (i : Instr) (s t : State) (r : Option StepResult), exec i s = .next t →
    exec i { s with report := r } = .next { t with report := r }

/-! ### Control transfer (41_control_flow.md) -/

/-- R122: 1NNN sets `pc` to NNN and changes nothing else. -/
def Obligations.JumpGoesToItsTarget : Prop :=
  ∀ (nnn : Addr12) (s : State), ∃ t, exec (.jp nnn) s = .next t ∧ t.pc.toNat = nnn.toNat ∧ Frame {} s t

/-- R128: BNNN sets `pc` to NNN plus `V[0]`, never truncated, and changes nothing else. -/
def Obligations.OffsetJumpAddsVZero : Prop :=
  ∀ (nnn : Addr12) (s : State), ∃ t, exec (.jpV0 nnn) s = .next t ∧
    t.pc.toNat = nnn.toNat + (s.reg 0).toNat ∧ Frame {} s t

/-- R121: 00EE with a live entry lowers `sp` by 1 and sets `pc` to that entry, no slot changing; with none it raises
`StackUnderflow` and nothing else is written. -/
def Obligations.ReturnPopsOrUnderflows : Prop :=
  ∀ s : State,
    (∀ j : Fin 16, s.sp.val = j.val + 1 → ∃ t, exec .ret s = .next t ∧
      t.sp.val = j.val ∧ t.pc = s.stack[j] ∧ t.stack = s.stack ∧ Frame { stack := true } s t) ∧
    (s.sp.val = 0 → exec .ret s = .next { s with mode := .halted .stackUnderflow })

/-- R123: 2NNN with room pushes `p + 2`, raises `sp` by 1 and sets `pc` to NNN; with 16 entries it raises `StackOverflow` and
nothing else is written. -/
def Obligations.CallPushesOrOverflows : Prop :=
  ∀ (nnn : Addr12) (s : State),
    (∀ j : Fin 16, s.sp.val = j.val → ∃ t, exec (.call nnn) s = .next t ∧
      t.sp.val = j.val + 1 ∧ t.stack[j] = s.pc + 2 ∧ (∀ m : Fin 16, m ≠ j → t.stack[m] = s.stack[m]) ∧
      t.pc.toNat = nnn.toNat ∧ Frame { stack := true } s t) ∧
    (s.sp.val = 16 → exec (.call nnn) s = .next { s with mode := .halted .stackOverflow })

/-- R121, R123: a call and then a return put `pc` after the call and `sp` back where it was. -/
def Obligations.CallThenReturnComesBack : Prop :=
  ∀ (nnn : Addr12) (s : State), s.sp.val < 16 →
    ∃ u t, exec (.call nnn) s = .next u ∧ exec .ret u = .next t ∧ t.pc = s.pc + 2 ∧ t.sp = s.sp ∧
      Frame { stack := true } s t

/-- R124, R125, R126, R127: the four register skips write `pc` alone: `p + 4` if the condition holds, else `p + 2`. -/
def Obligations.RegisterSkipsCompareAndSkip : Prop :=
  ∀ (x y : Reg) (nn : Byte) (s : State),
    (∃ t, exec (.seImm x nn) s = .next t ∧
      t.pc = (if s.reg x = nn then s.pc + 4 else s.pc + 2) ∧ Frame {} s t) ∧
    (∃ t, exec (.sneImm x nn) s = .next t ∧
      t.pc = (if s.reg x ≠ nn then s.pc + 4 else s.pc + 2) ∧ Frame {} s t) ∧
    (∃ t, exec (.seReg x y) s = .next t ∧
      t.pc = (if s.reg x = s.reg y then s.pc + 4 else s.pc + 2) ∧ Frame {} s t) ∧
    (∃ t, exec (.sneReg x y) s = .next t ∧
      t.pc = (if s.reg x ≠ s.reg y then s.pc + 4 else s.pc + 2) ∧ Frame {} s t)

/-! ### Loads and the ALU (42_alu.md) -/

/-- R142, R144: 6XNN loads its immediate and 8XY0 copies, with `x = 15` as with any other register. -/
def Obligations.LoadsAndCopiesSetOneRegister : Prop :=
  ∀ (x y : Reg) (nn : Byte) (s : State),
    (∃ t, exec (.ldImm x nn) s = .next t ∧ t.reg x = nn ∧ t.pc = s.pc + 2 ∧ Frame { regs := [x] } s t) ∧
    (∃ t, exec (.ldReg x y) s = .next t ∧ t.reg x = s.reg y ∧ t.pc = s.pc + 2 ∧ Frame { regs := [x] } s t)

/-- R143, R23: 7XNN adds mod 256, and `VF` is written only if it is the destination. -/
def Obligations.AddImmediateWrapsWithoutFlag : Prop :=
  ∀ (x : Reg) (nn : Byte) (s : State), ∃ t, exec (.addImm x nn) s = .next t ∧
    (t.reg x).toNat = ((s.reg x).toNat + nn.toNat) % 256 ∧ t.pc = s.pc + 2 ∧ Frame { regs := [x] } s t

/-- R145, R146, R147: OR, AND and XOR bit by bit, with no flag. -/
def Obligations.BitwiseOperationsActBitByBit : Prop :=
  ∀ (x y : Reg) (s : State),
    (∃ t, exec (.orReg x y) s = .next t ∧ t.pc = s.pc + 2 ∧ Frame { regs := [x] } s t ∧
      ∀ b, (t.reg x).getLsbD b = ((s.reg x).getLsbD b || (s.reg y).getLsbD b)) ∧
    (∃ t, exec (.andReg x y) s = .next t ∧ t.pc = s.pc + 2 ∧ Frame { regs := [x] } s t ∧
      ∀ b, (t.reg x).getLsbD b = ((s.reg x).getLsbD b && (s.reg y).getLsbD b)) ∧
    (∃ t, exec (.xorReg x y) s = .next t ∧ t.pc = s.pc + 2 ∧ Frame { regs := [x] } s t ∧
      ∀ b, (t.reg x).getLsbD b = ((s.reg x).getLsbD b != (s.reg y).getLsbD b))

/-- R149 for `x != 15`: the sum mod 256, and `VF` 1 exactly if the sum exceeds 255, the old `VF` being an ordinary operand
where `y = 15`. -/
def Obligations.AddRegistersReportsCarry : Prop :=
  ∀ (x y : Reg) (s : State), x ≠ VF → ∃ t, exec (.addReg x y) s = .next t ∧
    (t.reg x).toNat = ((s.reg x).toNat + (s.reg y).toNat) % 256 ∧
    t.reg VF = (if 255 < (s.reg x).toNat + (s.reg y).toNat then 1 else 0) ∧
    t.pc = s.pc + 2 ∧ Frame { regs := [x, VF] } s t

/-- R150, R152 for `x != 15`: the difference mod 256 in both orders, and `VF` 0 exactly if a borrow occurs. -/
def Obligations.SubtractionsReportNotBorrow : Prop :=
  ∀ (x y : Reg) (s : State), x ≠ VF →
    (∃ t, exec (.sub x y) s = .next t ∧
      (t.reg x).toNat = ((s.reg x).toNat + 256 - (s.reg y).toNat) % 256 ∧
      t.reg VF = (if (s.reg x).toNat < (s.reg y).toNat then 0 else 1) ∧
      t.pc = s.pc + 2 ∧ Frame { regs := [x, VF] } s t) ∧
    (∃ t, exec (.subn x y) s = .next t ∧
      (t.reg x).toNat = ((s.reg y).toNat + 256 - (s.reg x).toNat) % 256 ∧
      t.reg VF = (if (s.reg y).toNat < (s.reg x).toNat then 0 else 1) ∧
      t.pc = s.pc + 2 ∧ Frame { regs := [x, VF] } s t)

/-- R151, R153 for `x != 15`, R76: logical shifts by one of `V[x]`, `VF` the bit shifted out, and `V[y]` plays no part. -/
def Obligations.ShiftsReportTheBitShiftedOut : Prop :=
  ∀ (x y : Reg) (s : State), x ≠ VF →
    (∃ t, exec (.shr x y) s = .next t ∧ (t.reg x).toNat = (s.reg x).toNat / 2 ∧
      (t.reg VF).toNat = (s.reg x).toNat % 2 ∧ t.pc = s.pc + 2 ∧ Frame { regs := [x, VF] } s t) ∧
    (∃ t, exec (.shl x y) s = .next t ∧ (t.reg x).toNat = (s.reg x).toNat * 2 % 256 ∧
      (t.reg VF).toNat = (s.reg x).toNat / 128 ∧ t.pc = s.pc + 2 ∧ Frame { regs := [x, VF] } s t) ∧
    (∀ y', exec (.shr x y') s = exec (.shr x y) s ∧ exec (.shl x y') s = exec (.shl x y) s)

/-- R141: the five flag-writing ALU instructions run with `x = 15` too, whatever `VF` then is: a free value, of which this
says nothing but that one was taken (log entry 3). Every other register stays as it was. -/
def Obligations.FlagWritersRunWithVFAsDestination : Prop :=
  ∀ (i : Instr) (y : Reg) (s : State),
    i = .addReg VF y ∨ i = .sub VF y ∨ i = .shr VF y ∨ i = .subn VF y ∨ i = .shl VF y →
    ∃ t, exec i s = .next t ∧ t.pc = s.pc + 2 ∧ t.draws = s.draws + 1 ∧
      Frame { regs := [VF], draws := true } s t

/-- R154: CXNN puts a draw of the oracle under the mask into `V[x]`: bits outside NN are 0, and for each byte the oracle
could have drawn the result is that byte under the mask (the draw is a free value, log entry 2). -/
def Obligations.RandomByteStaysUnderItsMask : Prop :=
  ∀ (x : Reg) (nn : Byte) (s : State), ∃ t, exec (.rnd x nn) s = .next t ∧
    (∀ r, Config.randomByte s.draws = r → t.reg x = r &&& nn) ∧
    (∀ b, nn.getLsbD b = false → (t.reg x).getLsbD b = false) ∧
    t.pc = s.pc + 2 ∧ t.draws = s.draws + 1 ∧ Frame { regs := [x], draws := true } s t

/-! ### The index register and memory transfers (43_index_memory.md) -/

/-- R170, R172: ANNN sets `I` to NNN, and FX29 to the glyph of the low nibble of `V[x]`, five bytes a glyph. -/
def Obligations.IndexIsSetToValueOrGlyph : Prop :=
  ∀ (nnn : Addr12) (x : Reg) (s : State),
    (∃ t, exec (.ldI nnn) s = .next t ∧ t.I.toNat = nnn.toNat ∧ t.pc = s.pc + 2 ∧ Frame { index := true } s t) ∧
    (∃ t, exec (.ldF x) s = .next t ∧ t.I.toNat = 0x000 + 5 * ((s.reg x).toNat % 16) ∧ t.pc = s.pc + 2 ∧
      Frame { index := true } s t)

/-- R171: FX1E adds `V[x]` to `I` mod 2^16, with no flag and no fault. -/
def Obligations.AddToIndexWrapsAtSixteenBits : Prop :=
  ∀ (x : Reg) (s : State), ∃ t, exec (.addI x) s = .next t ∧
    t.I.toNat = (s.I.toNat + (s.reg x).toNat) % 65536 ∧ t.pc = s.pc + 2 ∧ Frame { index := true } s t

/-- R173: FX33 stores three decimal digits at `I`, most significant first, the value their number; every other byte and `I`
stay. If `I + 2 > 0xFFF` it raises `MemoryOutOfRange` and nothing else is written. -/
def Obligations.DecimalDigitsAreStored : Prop :=
  ∀ (x : Reg) (s : State),
    (s.I.toNat + 2 ≤ 0xFFF → ∃ t, exec (.ldB x) s = .next t ∧
      (t.mem.read s.I.toNat).toNat ≤ 2 ∧ (t.mem.read (s.I.toNat + 1)).toNat ≤ 9 ∧
      (t.mem.read (s.I.toNat + 2)).toNat ≤ 9 ∧
      (s.reg x).toNat = 100 * (t.mem.read s.I.toNat).toNat + 10 * (t.mem.read (s.I.toNat + 1)).toNat +
        (t.mem.read (s.I.toNat + 2)).toNat ∧
      t.pc = s.pc + 2 ∧ Frame { stored := (s.dataBase, 3) } s t) ∧
    (0xFFF < s.I.toNat + 2 → exec (.ldB x) s = .next { s with mode := .halted .memoryOutOfRange })

/-- R174: FX55 stores `V[0]` to `V[x]` from `I` on; every other byte and `I` stay. If `I + x > 0xFFF` it raises
`MemoryOutOfRange` and nothing else is written. -/
def Obligations.RegistersAreStored : Prop :=
  ∀ (x : Reg) (s : State),
    (s.I.toNat + x.val ≤ 0xFFF → ∃ t, exec (.stRegs x) s = .next t ∧
      (∀ k : Reg, k.val ≤ x.val → t.mem.read (s.I.toNat + k.val) = s.reg k) ∧
      t.pc = s.pc + 2 ∧ Frame { stored := (s.dataBase, x.val + 1) } s t) ∧
    (0xFFF < s.I.toNat + x.val → exec (.stRegs x) s = .next { s with mode := .halted .memoryOutOfRange })

/-- R175: FX65 loads `V[0]` to `V[x]` from `I` on; every other register, memory and `I` stay. If `I + x > 0xFFF` it raises
`MemoryOutOfRange` and nothing else is written. -/
def Obligations.RegistersAreLoaded : Prop :=
  ∀ (x : Reg) (s : State),
    (s.I.toNat + x.val ≤ 0xFFF → ∃ t, exec (.ldRegs x) s = .next t ∧
      (∀ k : Reg, t.reg k = if k.val ≤ x.val then s.mem.read (s.I.toNat + k.val) else s.reg k) ∧
      t.pc = s.pc + 2 ∧ Frame { regs := List.finRange 16 } s t) ∧
    (0xFFF < s.I.toNat + x.val → exec (.ldRegs x) s = .next { s with mode := .halted .memoryOutOfRange })

/-- R174, R175: registers stored by FX55 come back by an FX65 after it, whatever the registers held in between. (That FX55
leaves `I`, so that the FX65 finds it the same, is the spec's decision D13, log entry 15: false of the variant that
advances `I`.) -/
def Obligations.StoredRegistersLoadBack : Prop :=
  ∀ (x : Reg) (s u : State) (V : Vector Byte 16), s.I.toNat + x.val ≤ 0xFFF → exec (.stRegs x) s = .next u →
    ∃ t, exec (.ldRegs x) { u with V := V } = .next t ∧
      ∀ k : Reg, t.reg k = if k.val ≤ x.val then s.reg k else V[k]

/-- R65, R102: a word that FX55 stores where the core goes on is the word the very next step fetches. -/
def Obligations.NextStepFetchesStoredBytes : Prop :=
  ∀ (x k j : Reg) (s t u : State) (i : Instr), s.mode = .running → j.val = k.val + 1 → j.val ≤ x.val →
    s.pc.toNat + 2 = s.I.toNat + k.val → s.I.toNat + x.val ≤ 0xFFF → exec (.stRegs x) s = .next t →
    decodeWord (s.reg k ++ s.reg j) = .ok i → exec i t = .next u →
    ∃ v, step t = .next v ∧ v = { u with report := v.report }

/-! ### The framebuffer (44_display.md) -/

/-- R191: 00E0 unsets every pixel, and `VF` stays. -/
def Obligations.ClearUnsetsEveryPixel : Prop :=
  ∀ s : State, ∃ t, exec .cls s = .next t ∧ (∀ row col, t.fb.pixel row col = false) ∧ t.pc = s.pc + 2 ∧
    Frame { frame := true } s t

/-- R190, R192, R193: DXYN flips exactly the pixels that a set bit of the sprite lands on, the coordinates wrapped and taken
before `VF` is written, and `VF` is 1 exactly if one of them was set; with `n = 0` no pixel changes and `VF` is 0. (That
bit 7 is the leftmost pixel is the spec's decision D12, from general knowledge: log entry 8.) -/
def Obligations.DrawFlipsExactlyTheSpritePixels : Prop :=
  ∀ (x y : Reg) (n : Fin 16) (s : State), n.val = 0 ∨ s.I.toNat + (n.val - 1) ≤ 0xFFF →
    ∃ t, exec (.drw x y n) s = .next t ∧
      (∀ row col, LandsOn s x y n row col → t.fb.pixel row col = !s.fb.pixel row col) ∧
      (∀ row col, ¬ LandsOn s x y n row col → t.fb.pixel row col = s.fb.pixel row col) ∧
      ((∃ row col, LandsOn s x y n row col ∧ s.fb.pixel row col = true) → t.reg VF = 1) ∧
      ((¬ ∃ row col, LandsOn s x y n row col ∧ s.fb.pixel row col = true) → t.reg VF = 0) ∧
      t.pc = s.pc + 2 ∧ Frame { regs := [VF], frame := true } s t

/-- R194: drawing a sprite twice at one place restores the framebuffer, and the second draw's `VF` is 1 exactly if a set bit
of the sprite fell on a pixel that was unset before the first draw. The coordinate registers are not `VF`, which the first
draw writes. -/
def Obligations.DrawingTwiceRestoresTheFramebuffer : Prop :=
  ∀ (x y : Reg) (n : Fin 16) (s u t : State), x ≠ VF → y ≠ VF → fatalOf (.drw x y n) s = none →
    exec (.drw x y n) s = .next u → exec (.drw x y n) u = .next t →
    t.fb = s.fb ∧
    (t.reg VF = 1 ↔ ∃ row col, LandsOn s x y n row col ∧ s.fb.pixel row col = false)

/-- R31, R237: the framebuffer read gives 2048 pixels, and the one at `row * 64 + col` is `fb[row][col]`. -/
def Obligations.FramebufferReadIsRowMajor : Prop :=
  ∀ s : State, (framebufferRead s).length = 2048 ∧
    ∀ (row : Fin 32) (col : Fin 64), (framebufferRead s)[row.val * 64 + col.val]? = some (s.fb.pixel row col)

/-! ### Keys and timers (45_timers_input.md, 60_exceptions.md) -/

/-- R200, R201: the key skips test the key whose index is `V[x]` and change `pc` alone; an index above 15 raises
`KeyIndexOutOfRange` and nothing else is written. -/
def Obligations.KeySkipsTestTheKey : Prop :=
  ∀ (x : Reg) (s : State),
    (∀ k : Key, (s.reg x).toNat = k.val →
      (∃ t, exec (.skp x) s = .next t ∧ t.pc = (if s.key[k] = true then s.pc + 4 else s.pc + 2) ∧ Frame {} s t) ∧
      (∃ t, exec (.sknp x) s = .next t ∧ t.pc = (if s.key[k] = false then s.pc + 4 else s.pc + 2) ∧
        Frame {} s t)) ∧
    (15 < (s.reg x).toNat →
      exec (.skp x) s = .next { s with mode := .halted .keyIndexOutOfRange } ∧
      exec (.sknp x) s = .next { s with mode := .halted .keyIndexOutOfRange })

/-- R202, R203, R204: FX07 reads the delay timer, FX15 and FX18 set the timers, and the sound is active after FX18 exactly if
the value set is not 0 (R238). -/
def Obligations.TimerInstructionsMoveTheTimers : Prop :=
  ∀ (x : Reg) (s : State),
    (∃ t, exec (.ldVxDT x) s = .next t ∧ t.reg x = s.DT ∧ t.pc = s.pc + 2 ∧ Frame { regs := [x] } s t) ∧
    (∃ t, exec (.ldDTVx x) s = .next t ∧ t.DT = s.reg x ∧ t.pc = s.pc + 2 ∧ Frame { delay := true } s t) ∧
    (∃ t, exec (.ldSTVx x) s = .next t ∧ t.ST = s.reg x ∧ (soundActive t = true ↔ s.reg x ≠ 0) ∧
      t.pc = s.pc + 2 ∧ Frame { sound := true } s t)

/-- R232: a tick lowers each timer by 1 with a floor of 0 and changes nothing else, in every mode. -/
def Obligations.TickCountsDownToZero : Prop :=
  ∀ s : State, perform .tick s = .next (tick s) ∧ (tick s).DT.toNat = s.DT.toNat - 1 ∧
    (tick s).ST.toNat = s.ST.toNat - 1 ∧ tick s = { s with DT := (tick s).DT, ST := (tick s).ST }

/-- R232: `n` ticks lower a timer by `n`, never below 0, and the machine's other state is untouched. -/
def Obligations.ManyTicksNeverPassZero : Prop :=
  ∀ (n : Nat) (s : State), ∃ t, performAll (List.replicate n .tick) s = .next t ∧
    t.DT.toNat = s.DT.toNat - n ∧ t.ST.toNat = s.ST.toNat - n ∧ t = { s with DT := t.DT, ST := t.ST }

/-- R205: FX0A enters the wait for its register: `pc` stays at the instruction and nothing but the mode is written; it does
so whatever keys are already held. -/
def Obligations.KeyWaitSuspendsTheCore : Prop :=
  ∀ (x : Reg) (s : State), ∃ t, exec (.ldVxK x) s = .next t ∧ t.mode = .awaitingKey x ∧ t.pc = s.pc ∧
    Frame { mode := true } s t

/-- R206, R207, R251: a wait ends only by a reset or by the report of a key that was not pressed, which in that same
transaction sets the key, puts its index into the register, advances `pc` by 2 and lets the core run. (That it ends in the
report and not in a later step is the spec's decision D10.) -/
def Obligations.KeyWaitEndsOnlyByNewPressOrReset : Prop :=
  ∀ (p : Transaction) (x : Reg) (s t : State), s.mode = .awaitingKey x → perform p s = .next t →
    t.mode = .awaitingKey x ∨ p = .reset ∨
    ∃ k : Key, p = .setKey k true ∧ s.key[k] = false ∧ t.mode = .running ∧ t.pc = s.pc + 2 ∧
      (t.reg x).toNat = k.val ∧ t.key = s.key.set k true ∧ (∀ j, j ≠ x → t.reg j = s.reg j) ∧
      t = { s with V := t.V, key := t.key, pc := t.pc, mode := t.mode }

/-- R206, R236: while the core waits, a new press completes the wait; a report of a key already pressed, a release, or a report
to a core that does not wait writes the one key flag and nothing else. -/
def Obligations.KeyReportCompletesTheWaitOrSetsOneFlag : Prop :=
  ∀ (k : Key) (pressed : Bool) (s : State),
    (∀ x, s.mode = .awaitingKey x → pressed = true → s.key[k] = false →
      ∃ t, perform (.setKey k pressed) s = .next t ∧ t.mode = .running ∧ t.pc = s.pc + 2 ∧
        (t.reg x).toNat = k.val ∧ t.key = s.key.set k true) ∧
    ((∀ x, s.mode ≠ .awaitingKey x) ∨ pressed = false ∨ s.key[k] = true →
      perform (.setKey k pressed) s = .next { s with key := s.key.set k pressed })

/-! ### Reset and load (70_reset_and_hazards.md, 60_exceptions.md) -/

/-- R40, R250, R251: reset, from any state, gives every component its value of the table: the parameter `font` at 0x000 to
0x04F (its bytes are the spec's decision D25, log entry 1), memory 0 above it, every register, timer, slot, pixel and key 0,
`pc` 0x200, the core running (decision D24). -/
def Obligations.ResetGivesTheTableOfResetValues : Prop :=
  ∀ s : State, ∃ t, perform .reset s = .next t ∧
    (∀ k : Nat, k < 80 → some (t.mem.read k) = font[k]?) ∧ (∀ a : Nat, 80 ≤ a → t.mem.read a = 0) ∧
    (∀ k, t.reg k = 0) ∧ t.I = 0 ∧ t.pc = 0x200 ∧ (∀ j : Fin 16, t.stack[j] = 0) ∧ t.sp.val = 0 ∧
    t.DT = 0 ∧ t.ST = 0 ∧ (∀ row col, t.fb.pixel row col = false) ∧ (∀ k : Key, t.key[k] = false) ∧
    t.mode = .running

/-- R240: a load after reset of an image of at most 3584 bytes copies it to 0x200 onward and writes nothing else; a longer
image, or a load after the first step, is refused (decision D23, log entry 9). -/
def Obligations.LoadCopiesTheImage : Prop :=
  ∀ (image : List Byte) (s : State),
    (s.report = none → image.length ≤ 3584 → ∃ t, perform (.load image) s = .next t ∧
      (∀ k : Nat, k < image.length → some (t.mem.read (0x200 + k)) = image[k]?) ∧
      (∀ a : Nat, a < 0x200 ∨ 0x200 + image.length ≤ a → t.mem.read a = s.mem.read a) ∧
      t = { s with mem := t.mem }) ∧
    (s.report = none → 3584 < image.length → perform (.load image) s = .refused .imageTooLong) ∧
    (s.report ≠ none → perform (.load image) s = .refused .loadAfterFirstStep)
end

