-- ==== Sys2Proof/Laws/Decode.lean ====
section
/-! SUPPORT. The word layouts and their fields: what each layout is as a number, what each field of it is, and back. -/

namespace Sys2Proof

theorem layoutXYN_toNat (a : BitVec 4) (x y : Reg) (b : BitVec 4) :
    (layoutXYN a x y b).toNat = a.toNat * 4096 + x.val * 256 + y.val * 16 + b.toNat := by
  simp only [layoutXYN, nibble, BitVec.toNat_append, BitVec.toNat_ofFin]
  rw [← Nat.shiftLeft_add_eq_or_of_lt (by omega), ← Nat.shiftLeft_add_eq_or_of_lt (by omega),
    ← Nat.shiftLeft_add_eq_or_of_lt (by omega)]
  simp only [Nat.shiftLeft_eq]
  omega

theorem layoutXNN_toNat (a : BitVec 4) (x : Reg) (nn : Byte) :
    (layoutXNN a x nn).toNat = a.toNat * 4096 + x.val * 256 + nn.toNat := by
  simp only [layoutXNN, nibble, BitVec.toNat_append, BitVec.toNat_ofFin]
  rw [← Nat.shiftLeft_add_eq_or_of_lt (by omega), ← Nat.shiftLeft_add_eq_or_of_lt (by omega)]
  simp only [Nat.shiftLeft_eq]
  omega

theorem layoutNNN_toNat (a : BitVec 4) (nnn : Addr12) : (layoutNNN a nnn).toNat = a.toNat * 4096 + nnn.toNat := by
  simp only [layoutNNN, BitVec.toNat_append]
  rw [← Nat.shiftLeft_add_eq_or_of_lt (by omega)]
  simp only [Nat.shiftLeft_eq]

theorem leadingNibble_toNat (w : Word) : (leadingNibble w).toNat = w.toNat / 4096 := by
  simp only [leadingNibble, BitVec.extractLsb'_toNat, Nat.shiftRight_eq_div_pow]
  omega

theorem trailingNibble_toNat (w : Word) : (trailingNibble w).toNat = w.toNat % 16 := by
  simp [trailingNibble]

theorem fieldX_val (w : Word) : (fieldX w).val = w.toNat / 256 % 16 := by
  simp only [fieldX, BitVec.val_toFin, BitVec.extractLsb'_toNat, Nat.shiftRight_eq_div_pow]

theorem fieldY_val (w : Word) : (fieldY w).val = w.toNat / 16 % 16 := by
  simp only [fieldY, BitVec.val_toFin, BitVec.extractLsb'_toNat, Nat.shiftRight_eq_div_pow]

theorem fieldN_val (w : Word) : (fieldN w).val = w.toNat % 16 := by
  simp only [fieldN, BitVec.val_toFin, BitVec.extractLsb'_toNat, Nat.shiftRight_eq_div_pow]
  omega

theorem fieldNN_toNat (w : Word) : (fieldNN w).toNat = w.toNat % 256 := by
  simp [fieldNN]

theorem fieldNNN_toNat (w : Word) : (fieldNNN w).toNat = w.toNat % 4096 := by
  simp [fieldNNN]

@[simp] theorem nibble_toNat (k : Fin 16) : (nibble k).toNat = k.val := rfl

@[simp] theorem leadingNibble_layoutXYN (a : BitVec 4) (x y : Reg) (b : BitVec 4) :
    leadingNibble (layoutXYN a x y b) = a :=
  BitVec.eq_of_toNat_eq (by rw [leadingNibble_toNat, layoutXYN_toNat]; omega)

@[simp] theorem leadingNibble_layoutXNN (a : BitVec 4) (x : Reg) (nn : Byte) :
    leadingNibble (layoutXNN a x nn) = a :=
  BitVec.eq_of_toNat_eq (by rw [leadingNibble_toNat, layoutXNN_toNat]; omega)

@[simp] theorem leadingNibble_layoutNNN (a : BitVec 4) (nnn : Addr12) : leadingNibble (layoutNNN a nnn) = a :=
  BitVec.eq_of_toNat_eq (by rw [leadingNibble_toNat, layoutNNN_toNat]; omega)

@[simp] theorem trailingNibble_layoutXYN (a : BitVec 4) (x y : Reg) (b : BitVec 4) :
    trailingNibble (layoutXYN a x y b) = b :=
  BitVec.eq_of_toNat_eq (by rw [trailingNibble_toNat, layoutXYN_toNat]; omega)

@[simp] theorem fieldX_layoutXYN (a : BitVec 4) (x y : Reg) (b : BitVec 4) : fieldX (layoutXYN a x y b) = x :=
  Fin.ext (by rw [fieldX_val, layoutXYN_toNat]; omega)

@[simp] theorem fieldY_layoutXYN (a : BitVec 4) (x y : Reg) (b : BitVec 4) : fieldY (layoutXYN a x y b) = y :=
  Fin.ext (by rw [fieldY_val, layoutXYN_toNat]; omega)

@[simp] theorem fieldN_layoutXYN (a : BitVec 4) (x y : Reg) (n : Fin 16) : fieldN (layoutXYN a x y (nibble n)) = n :=
  Fin.ext (by rw [fieldN_val, layoutXYN_toNat, nibble_toNat]; omega)

@[simp] theorem fieldX_layoutXNN (a : BitVec 4) (x : Reg) (nn : Byte) : fieldX (layoutXNN a x nn) = x :=
  Fin.ext (by rw [fieldX_val, layoutXNN_toNat]; omega)

@[simp] theorem fieldNN_layoutXNN (a : BitVec 4) (x : Reg) (nn : Byte) : fieldNN (layoutXNN a x nn) = nn :=
  BitVec.eq_of_toNat_eq (by rw [fieldNN_toNat, layoutXNN_toNat]; omega)

@[simp] theorem fieldNNN_layoutNNN (a : BitVec 4) (nnn : Addr12) : fieldNNN (layoutNNN a nnn) = nnn :=
  BitVec.eq_of_toNat_eq (by rw [fieldNNN_toNat, layoutNNN_toNat]; omega)

/-- A word is the layout of its own fields. -/
theorem layoutXYN_fields (w : Word) :
    layoutXYN (leadingNibble w) (fieldX w) (fieldY w) (trailingNibble w) = w :=
  BitVec.eq_of_toNat_eq (by
    rw [layoutXYN_toNat, leadingNibble_toNat, fieldX_val, fieldY_val, trailingNibble_toNat]; omega)

theorem layoutXNN_fields (w : Word) : layoutXNN (leadingNibble w) (fieldX w) (fieldNN w) = w :=
  BitVec.eq_of_toNat_eq (by rw [layoutXNN_toNat, leadingNibble_toNat, fieldX_val, fieldNN_toNat]; omega)

theorem layoutNNN_fields (w : Word) : layoutNNN (leadingNibble w) (fieldNNN w) = w :=
  BitVec.eq_of_toNat_eq (by rw [layoutNNN_toNat, leadingNibble_toNat, fieldNNN_toNat]; omega)

theorem layoutXYN_and (a a' : BitVec 4) (x x' y y' : Reg) (b b' : BitVec 4) :
    layoutXYN a x y b &&& layoutXYN a' x' y' b' =
      ((a &&& a') ++ (nibble x &&& nibble x') ++ (nibble y &&& nibble y') ++ (b &&& b') : BitVec 16) := by
  have h : ((a ++ nibble x ++ nibble y ++ b : BitVec (4 + 4 + 4 + 4)) &&& (a' ++ nibble x' ++ nibble y' ++ b')) =
      (a &&& a') ++ (nibble x &&& nibble x') ++ (nibble y &&& nibble y') ++ (b &&& b') := by
    rw [BitVec.and_append, BitVec.and_append, BitVec.and_append]
  exact h

theorem nibble_and_zero (k : BitVec 4) : k &&& nibble 0 = nibble 0 := by
  revert k; decide

theorem nibble_and_ones (k : BitVec 4) : k &&& 0xF = k := by
  revert k; decide

theorem nibble_and_fifteen (k : BitVec 4) : k &&& nibble 15 = k := by
  revert k; decide

/-- The fields the mask F00F keeps (30_encoding.md R74). -/
theorem and_F00F (w : Word) : w &&& 0xF00F#16 = layoutXYN (leadingNibble w) 0 0 (trailingNibble w) := by
  conv_lhs => rw [← layoutXYN_fields w, show 0xF00F#16 = layoutXYN 0xF 0 0 0xF from by decide]
  rw [layoutXYN_and, nibble_and_ones, nibble_and_ones, nibble_and_zero, nibble_and_zero]
  rfl

/-- The fields the mask F000 keeps (30_encoding.md R74). -/
theorem and_F000 (w : Word) : w &&& 0xF000#16 = layoutXYN (leadingNibble w) 0 0 0 := by
  conv_lhs => rw [← layoutXYN_fields w, show 0xF000#16 = layoutXYN 0xF 0 0 (nibble 0) from by decide]
  rw [layoutXYN_and, nibble_and_ones, nibble_and_zero, nibble_and_zero, nibble_and_zero]
  rfl

/-- The fields the mask F0FF keeps (30_encoding.md R74). -/
theorem and_F0FF (w : Word) : w &&& 0xF0FF#16 = layoutXNN (leadingNibble w) 0 (fieldNN w) := by
  conv_lhs => rw [← layoutXYN_fields w, show 0xF0FF#16 = layoutXYN 0xF 0 15 0xF from by decide]
  rw [layoutXYN_and, nibble_and_ones, nibble_and_ones, nibble_and_zero, nibble_and_fifteen]
  apply BitVec.eq_of_toNat_eq
  have h := layoutXYN_toNat (leadingNibble w) 0 (fieldY w) (trailingNibble w)
  rw [layoutXYN] at h
  rw [layoutXNN_toNat]
  refine h.trans ?_
  rw [fieldY_val, trailingNibble_toNat, fieldNN_toNat]
  simp only [Fin.val_zero]
  omega

/-- The two bytes of a word give the word back (20_memory.md R52). -/
@[simp] theorem wordOfBytes_bytes (w : Word) : wordOfBytes (highByte w) (lowByte w) = w := by
  apply BitVec.eq_of_toNat_eq
  simp only [wordOfBytes, highByte, lowByte, BitVec.toNat_append, BitVec.extractLsb'_toNat]
  rw [← Nat.shiftLeft_add_eq_or_of_lt (by omega)]
  simp only [Nat.shiftLeft_eq, Nat.shiftRight_eq_div_pow]
  omega

/-- Decoding the bytes of a word is decoding the word. -/
theorem decode_bytes (w : Word) (rest : List Byte) :
    decode (highByte w :: lowByte w :: rest) =
      match decodeWord w with
      | .ok i => .ok (i, rest)
      | .error e => .error e := by
  cases h : decodeWord w <;> simp only [decode, wordOfBytes_bytes, h]

end Sys2Proof
end

