-- ==== Sys2Proof/Laws/Draw.lean ====
section
/-! SUPPORT. The rasterizer's loops, said once in closed form: which pixels a row and a whole sprite flip, and when they
collide (44_display.md R190, R192). -/

namespace Sys2Proof.Machine

theorem Framebuffer.pixel_setPixel (fb : Framebuffer) (row row' : Fin 32) (col col' : Fin 64) (b : Bool) :
    (fb.setPixel row col b).pixel row' col' = if row' = row ∧ col' = col then b else fb.pixel row' col' := by
  simp only [Framebuffer.pixel, Framebuffer.setPixel, Fin.getElem_fin, Vector.getElem_set]
  by_cases hr : row.val = row'.val
  · by_cases hc : col.val = col'.val
    · simp [hr, hc, Fin.ext_iff]
    · have : ¬ col'.val = col.val := fun h => hc h.symm
      simp [hr, hc, this, Fin.ext_iff]
  · have : ¬ row'.val = row.val := fun h => hr h.symm
    simp [hr, this, Fin.ext_iff]

@[simp] theorem Framebuffer.pixel_blank (row : Fin 32) (col : Fin 64) : Framebuffer.blank.pixel row col = false := by
  simp [Framebuffer.blank, Framebuffer.pixel]

/-- Two framebuffers with equal pixels are equal. -/
theorem Framebuffer.ext_pixel {f g : Framebuffer} (h : ∀ row col, f.pixel row col = g.pixel row col) : f = g := by
  apply Vector.ext
  intro i hi
  apply Vector.ext
  intro j hj
  exact h ⟨i, hi⟩ ⟨j, hj⟩

/-- The first `k` columns of sprite row `r` reach pixel `(row, col)` with a set bit. -/
def rowHits (x0 y0 r : Nat) (b : Byte) (k : Nat) (row : Fin 32) (col : Fin 64) : Prop :=
  ∃ c, c < k ∧ b.getLsbD (7 - c) = true ∧ row.val = (y0 + r) % 32 ∧ col.val = (x0 + c) % 64

/-- The first `k` rows of a sprite reach pixel `(row, col)` with a set bit. -/
def spriteHits (x0 y0 : Nat) (bytes : List Byte) (k : Nat) (row : Fin 32) (col : Fin 64) : Prop :=
  ∃ r, r < k ∧ rowHits x0 y0 r (bytes.getD r 0) 8 row col

/-- A drawing is `d` with the pixels of `P` flipped, and it collided if `d` had or one of those pixels was set. -/
structure Flips (P : Fin 32 → Fin 64 → Prop) (d e : Drawing) : Prop where
  hit     : ∀ row col, P row col → e.fb.pixel row col = !d.fb.pixel row col
  miss    : ∀ row col, ¬ P row col → e.fb.pixel row col = d.fb.pixel row col
  collide : e.collide = true ↔ d.collide = true ∨ ∃ row col, P row col ∧ d.fb.pixel row col = true

theorem Flips.none (d : Drawing) {P : Fin 32 → Fin 64 → Prop} (h : ∀ row col, ¬ P row col) : Flips P d d :=
  ⟨fun row col hp => absurd hp (h row col), fun _ _ _ => rfl,
    ⟨.inl, fun hd => hd.elim id fun ⟨row, col, hp, _⟩ => absurd hp (h row col)⟩⟩

/-- Flipping one set of pixels and then another, disjoint from it, flips their union. -/
theorem Flips.trans {P Q R : Fin 32 → Fin 64 → Prop} {d e f : Drawing} (h1 : Flips P d e) (h2 : Flips Q e f)
    (hd : ∀ row col, P row col → ¬ Q row col) (hR : ∀ row col, R row col ↔ P row col ∨ Q row col) : Flips R d f := by
  refine ⟨fun row col hr => ?_, fun row col hr => ?_, ?_⟩
  · rcases (hR row col).1 hr with hp | hq
    · rw [h2.miss row col (hd row col hp), h1.hit row col hp]
    · rw [h2.hit row col hq, h1.miss row col fun hp => hd row col hp hq]
  · rw [hR] at hr
    rw [h2.miss row col fun hq => hr (.inr hq), h1.miss row col fun hp => hr (.inl hp)]
  · rw [h2.collide, h1.collide]
    constructor
    · rintro ((h | ⟨row, col, hp, hs⟩) | ⟨row, col, hq, hs⟩)
      · exact .inl h
      · exact .inr ⟨row, col, (hR row col).2 (.inl hp), hs⟩
      · rw [h1.miss row col fun hp => hd row col hp hq] at hs
        exact .inr ⟨row, col, (hR row col).2 (.inr hq), hs⟩
    · rintro (h | ⟨row, col, hr, hs⟩)
      · exact .inl (.inl h)
      · rcases (hR row col).1 hr with hp | hq
        · exact .inl (.inr ⟨row, col, hp, hs⟩)
        · exact .inr ⟨row, col, hq, by rw [h1.miss row col fun hp => hd row col hp hq]; exact hs⟩

/-- One column of a sprite row. -/
theorem drawColumn_flips (x0 y0 r : Nat) (b : Byte) (d : Drawing) (c : Nat) :
    Flips (fun row col => b.getLsbD (7 - c) = true ∧ row.val = (y0 + r) % 32 ∧ col.val = (x0 + c) % 64) d
      (drawColumn x0 y0 r b d c) := by
  unfold drawColumn
  split
  · rename_i hb
    refine ⟨?_, ?_, ?_⟩
    · rintro row col ⟨-, hr, hc⟩
      have hr' : row = Fin.ofNat 32 (y0 + r) := Fin.ext (by simpa using hr)
      have hc' : col = Fin.ofNat 64 (x0 + c) := Fin.ext (by simpa using hc)
      simp only [Framebuffer.pixel_setPixel, hr', hc', and_self, if_true]
    · intro row col hn
      rw [Framebuffer.pixel_setPixel, if_neg]
      rintro ⟨hr, hc⟩
      exact hn ⟨hb, by simp [hr], by simp [hc]⟩
    · simp only [Bool.or_eq_true]
      refine or_congr_right ⟨fun h => ⟨_, _, ⟨hb, by simp, by simp⟩, h⟩, ?_⟩
      rintro ⟨row, col, ⟨-, hr, hc⟩, h⟩
      have hr' : row = Fin.ofNat 32 (y0 + r) := Fin.ext (by simpa using hr)
      have hc' : col = Fin.ofNat 64 (x0 + c) := Fin.ext (by simpa using hc)
      rwa [hr', hc'] at h
  · rename_i hb
    exact Flips.none d fun row col h => hb h.1

theorem drawColumns_flips (x0 y0 r : Nat) (b : Byte) (d : Drawing) (k : Nat) (hk : k ≤ 8) :
    Flips (rowHits x0 y0 r b k) d ((List.range k).foldl (drawColumn x0 y0 r b) d) := by
  induction k with
  | zero => exact Flips.none d fun row col ⟨c, hc, _⟩ => by omega
  | succ k ih =>
    rw [List.range_succ, List.foldl_append]
    refine (ih (by omega)).trans (drawColumn_flips x0 y0 r b _ k) ?_ fun row col => ⟨?_, ?_⟩
    · rintro row col ⟨c, hc, -, -, h1⟩ ⟨-, -, h2⟩
      omega
    · rintro ⟨c, hc, h⟩
      by_cases hck : c = k
      · exact .inr (hck ▸ h)
      · exact .inl ⟨c, by omega, h⟩
    · rintro (⟨c, hc, h⟩ | h)
      · exact ⟨c, by omega, h⟩
      · exact ⟨k, by omega, h⟩

/-- A whole sprite of at most 32 rows flips exactly the pixels its set bits reach, each once, and collides exactly if one of
them was set (44_display.md R192). -/
theorem drawSprite_flips (x0 y0 : Nat) (bytes : List Byte) (fb : Framebuffer) (h : bytes.length ≤ 32) :
    Flips (spriteHits x0 y0 bytes bytes.length) { fb := fb, collide := false } (drawSprite x0 y0 bytes fb) := by
  suffices hk : ∀ k, k ≤ 32 → Flips (spriteHits x0 y0 bytes k) { fb := fb, collide := false }
      ((List.range k).foldl (drawRow x0 y0 bytes) { fb := fb, collide := false }) from hk _ h
  intro k
  induction k with
  | zero => exact fun _ => Flips.none _ fun row col ⟨r, hr, _⟩ => by omega
  | succ k ih =>
    intro hk
    rw [List.range_succ, List.foldl_append]
    refine (ih (by omega)).trans (drawColumns_flips x0 y0 k (bytes.getD k 0) _ 8 (le_refl 8)) ?_
      fun row col => ⟨?_, ?_⟩
    · rintro row col ⟨r, hr, c, -, -, h1, -⟩ ⟨c', -, -, h2, -⟩
      omega
    · rintro ⟨r, hr, hh⟩
      by_cases hrk : r = k
      · exact .inr (hrk ▸ hh)
      · exact .inl ⟨r, by omega, hh⟩
    · rintro (⟨r, hr, hh⟩ | hh)
      · exact ⟨r, by omega, hh⟩
      · exact ⟨k, by omega, hh⟩

end Sys2Proof.Machine
end

