-- ==== Sys2Proof/Laws/Memory.lean ====
section
/-! SUPPORT. The laws of memory: a read after a write, a run of writes, and that every operation keeps the canonical form. -/

namespace Sys2Proof.Machine

/-- Leaving out the cell of `a` changes no other address. -/
theorem Memory.read_filter_ne (m : Memory) (a b : Nat) (h : b ≠ a) :
    Memory.read (m.filter fun c => c.1 ≠ a) b = m.read b := by
  induction m with
  | nil => rfl
  | cons c m ih =>
    by_cases hc : c.1 = a
    · rw [List.filter_cons_of_neg (by simp [hc]), ih, Memory.read, if_neg (by omega)]
    · rw [List.filter_cons_of_pos (by simp [hc]), Memory.read, Memory.read, ih]

/-- An address whose cell is left out reads as reset leaves it. -/
theorem Memory.read_filter_same (m : Memory) (a : Nat) :
    Memory.read (m.filter fun c => c.1 ≠ a) a = resetByte a := by
  induction m with
  | nil => rfl
  | cons c m ih =>
    by_cases hc : c.1 = a
    · rw [List.filter_cons_of_neg (by simp [hc]), ih]
    · rw [List.filter_cons_of_pos (by simp [hc]), Memory.read, if_neg (by omega), ih]

theorem Memory.read_insert_ne (m : Memory) (a b : Nat) (v : Byte) (h : b ≠ a) :
    (m.insert (a, v)).read b = m.read b := by
  induction m with
  | nil => simp [Memory.insert, Memory.read, h]
  | cons c m ih =>
    rw [Memory.insert]
    split
    · simp [Memory.read, h]
    · rw [Memory.read, Memory.read, ih]

theorem Memory.read_insert_same (m : Memory) (a : Nat) (v : Byte) (h : ∀ c ∈ m, c.1 ≠ a) :
    (m.insert (a, v)).read a = v := by
  induction m with
  | nil => simp [Memory.insert, Memory.read]
  | cons c m ih =>
    rw [Memory.insert]
    split
    · simp [Memory.read]
    · rw [Memory.read, if_neg (h c (by simp)).symm, ih fun d hd => h d (by simp [hd])]

/-- A read after a write to the same address gives the byte written (20_memory.md R53, R54), in any list. -/
@[simp] theorem Memory.read_write_same (m : Memory) (a : Nat) (v : Byte) : (m.write a v).read a = v := by
  simp only [Memory.write]
  split
  · rename_i h
    rw [Memory.read_filter_same, h]
  · exact Memory.read_insert_same _ _ _ fun c hc => by simpa using (List.mem_filter.1 hc).2

/-- A write leaves every other address alone (20_memory.md R54), in any list. -/
theorem Memory.read_write_ne (m : Memory) (a b : Nat) (v : Byte) (h : b ≠ a) : (m.write a v).read b = m.read b := by
  simp only [Memory.write]
  split
  · exact Memory.read_filter_ne m a b h
  · rw [Memory.read_insert_ne _ _ _ _ h, Memory.read_filter_ne m a b h]

/-- Both laws at once. -/
theorem Memory.read_write (m : Memory) (a b : Nat) (v : Byte) :
    (m.write a v).read b = if b = a then v else m.read b := by
  split
  · rename_i h
    rw [h, Memory.read_write_same]
  · rename_i h
    exact Memory.read_write_ne m a b v h

/-- What a run of writes leaves at each address. -/
theorem Memory.read_storeAll (m : Memory) (a b : Nat) (vs : List Byte) :
    (m.storeAll a vs).read b = if a ≤ b ∧ b < a + vs.length then vs.getD (b - a) 0 else m.read b := by
  induction vs generalizing m a with
  | nil => simp only [Memory.storeAll, List.length_nil]; rw [if_neg (by omega)]
  | cons v vs ih =>
    simp only [Memory.storeAll, ih, Memory.read_write, List.length_cons]
    by_cases h : b = a
    · subst h
      rw [if_neg (by omega), if_pos rfl, if_pos (by omega)]
      simp
    · by_cases h2 : a + 1 ≤ b ∧ b < a + 1 + vs.length
      · rw [if_pos h2, if_pos (by omega), show b - a = (b - (a + 1)) + 1 by omega]
        simp
      · rw [if_neg h2, if_neg h, if_neg (by omega)]

/-- A byte outside a run of writes reads as before. -/
theorem Memory.read_storeAll_outside (m : Memory) (a b : Nat) (vs : List Byte) (h : ¬ (a ≤ b ∧ b < a + vs.length)) :
    (m.storeAll a vs).read b = m.read b := by
  rw [Memory.read_storeAll, if_neg h]

/-- A byte of a run of writes reads as written. -/
theorem Memory.read_storeAll_inside (m : Memory) (a k : Nat) (vs : List Byte) (h : k < vs.length) :
    (m.storeAll a vs).read (a + k) = vs.getD k 0 := by
  rw [Memory.read_storeAll, if_pos (by omega), show a + k - a = k by omega]

theorem Memory.wfFrom_mono {m : Memory} {lo hi : Nat} (h : lo ≤ hi) (w : m.wfFrom hi = true) : m.wfFrom lo = true := by
  cases m with
  | nil => rfl
  | cons c m =>
    simp only [Memory.wfFrom, Bool.and_eq_true, decide_eq_true_eq] at w ⊢
    exact ⟨⟨⟨by omega, w.1.1.2⟩, w.1.2⟩, w.2⟩

theorem Memory.wfFrom_filter {m : Memory} {lo : Nat} (p : Host.Cell → Bool) (w : m.wfFrom lo = true) :
    Memory.wfFrom lo (m.filter p) = true := by
  induction m generalizing lo with
  | nil => rfl
  | cons c m ih =>
    simp only [Memory.wfFrom, Bool.and_eq_true, decide_eq_true_eq] at w
    rw [List.filter_cons]
    split
    · simp only [Memory.wfFrom, Bool.and_eq_true, decide_eq_true_eq]
      exact ⟨w.1, ih w.2⟩
    · exact Memory.wfFrom_mono (by omega) (ih w.2)

theorem Memory.wfFrom_insert {m : Memory} {lo a : Nat} {v : Byte} (w : m.wfFrom lo = true) (ha : lo ≤ a)
    (hm : a < Config.memSize) (hv : v ≠ resetByte a) (hn : ∀ c ∈ m, c.1 ≠ a) :
    Memory.wfFrom lo (m.insert (a, v)) = true := by
  induction m generalizing lo with
  | nil =>
    simp only [Memory.insert, Memory.wfFrom, Bool.and_eq_true, decide_eq_true_eq, bne_iff_ne, ne_eq]
    exact ⟨⟨⟨ha, hm⟩, hv⟩, trivial⟩
  | cons c m ih =>
    simp only [Memory.wfFrom, Bool.and_eq_true, decide_eq_true_eq] at w
    rw [Memory.insert]
    have hc : c.1 ≠ a := hn c (by simp)
    split
    · rename_i hlt
      simp only at hlt
      simp only [Memory.wfFrom, Bool.and_eq_true, decide_eq_true_eq, bne_iff_ne, ne_eq]
      exact ⟨⟨⟨ha, hm⟩, hv⟩, ⟨⟨by omega, w.1.1.2⟩, by simpa using w.1.2⟩, w.2⟩
    · rename_i hlt
      simp only at hlt
      simp only [Memory.wfFrom, Bool.and_eq_true, decide_eq_true_eq]
      exact ⟨w.1, ih w.2 (by omega) fun d hd => hn d (by simp [hd])⟩

/-- The empty memory of reset is in canonical form. -/
@[simp] theorem Memory.wf_nil : Memory.wf [] = true := rfl

/-- A write keeps the canonical form. -/
theorem Memory.wf_write {m : Memory} {a : Nat} (v : Byte) (w : m.wf = true) (h : a < Config.memSize) :
    (m.write a v).wf = true := by
  simp only [Memory.write, Memory.wf]
  split
  · exact Memory.wfFrom_filter _ w
  · rename_i hv
    exact Memory.wfFrom_insert (Memory.wfFrom_filter _ w) (Nat.zero_le a) h hv
      fun c hc => by simpa using (List.mem_filter.1 hc).2

/-- A run of writes inside memory keeps the canonical form. -/
theorem Memory.wf_storeAll {m : Memory} {a : Nat} (vs : List Byte) (w : m.wf = true)
    (h : a + vs.length ≤ Config.memSize) : (m.storeAll a vs).wf = true := by
  induction vs generalizing m a with
  | nil => exact w
  | cons v vs ih =>
    simp only [List.length_cons] at h
    exact ih (Memory.wf_write v w (by omega)) (by omega)

theorem inRange_iff (a n : Nat) : inRange a n = true ↔ n = 0 ∨ a + n ≤ Config.memSize := by
  simp only [inRange, Bool.or_eq_true, beq_iff_eq, decide_eq_true_eq]
  simp only [Config.memSize]
  omega

/-- Everything `writeBytes` can do. -/
theorem Memory.writeBytes_cases (m : Memory) (a : Nat) (vs : List Byte) :
    (inRange a vs.length = true ∧ m.writeBytes a vs = .ok (m.storeAll a vs)) ∨
    (inRange a vs.length = false ∧ m.writeBytes a vs = .error .memoryOutOfRange) := by
  cases h : inRange a vs.length <;> simp [Memory.writeBytes, h]

/-- Everything `readBytes` can do. -/
theorem Memory.readBytes_cases (m : Memory) (a n : Nat) :
    (inRange a n = true ∧ m.readBytes a n = .ok ((List.range n).map fun k => m.read (a + k))) ∨
    (inRange a n = false ∧ m.readBytes a n = .error .memoryOutOfRange) := by
  cases h : inRange a n <;> simp [Memory.readBytes, h]

/-- `writeBytes` keeps the canonical form. -/
theorem Memory.wf_writeBytes {m m' : Memory} {a : Nat} {vs : List Byte} (w : m.wf = true)
    (h : m.writeBytes a vs = .ok m') : m'.wf = true := by
  rcases m.writeBytes_cases a vs with ⟨hr, he⟩ | ⟨_, he⟩
  · rw [he] at h
    cases h
    rcases (inRange_iff _ _).1 hr with h0 | h0
    · rw [List.length_eq_zero_iff.1 h0]
      exact w
    · exact Memory.wf_storeAll vs w h0
  · rw [he] at h
    cases h

end Sys2Proof.Machine
end

