-- ==== Sys2Proof/Laws/State.lean ====
section
/-! SUPPORT. One lemma per component per update of the state, so that no proof unfolds a record update; and reading a
register after each update. -/

namespace Sys2Proof.Machine

@[simp] theorem State.setReg_mem (s : State) (x : Reg) (v : Byte) : (s.setReg x v).mem = s.mem := rfl
@[simp] theorem State.setReg_V (s : State) (x : Reg) (v : Byte) : (s.setReg x v).V = s.V.set x v := rfl
@[simp] theorem State.setReg_I (s : State) (x : Reg) (v : Byte) : (s.setReg x v).I = s.I := rfl
@[simp] theorem State.setReg_pc (s : State) (x : Reg) (v : Byte) : (s.setReg x v).pc = s.pc := rfl
@[simp] theorem State.setReg_stack (s : State) (x : Reg) (v : Byte) : (s.setReg x v).stack = s.stack := rfl
@[simp] theorem State.setReg_sp (s : State) (x : Reg) (v : Byte) : (s.setReg x v).sp = s.sp := rfl
@[simp] theorem State.setReg_DT (s : State) (x : Reg) (v : Byte) : (s.setReg x v).DT = s.DT := rfl
@[simp] theorem State.setReg_ST (s : State) (x : Reg) (v : Byte) : (s.setReg x v).ST = s.ST := rfl
@[simp] theorem State.setReg_fb (s : State) (x : Reg) (v : Byte) : (s.setReg x v).fb = s.fb := rfl
@[simp] theorem State.setReg_key (s : State) (x : Reg) (v : Byte) : (s.setReg x v).key = s.key := rfl
@[simp] theorem State.setReg_mode (s : State) (x : Reg) (v : Byte) : (s.setReg x v).mode = s.mode := rfl
@[simp] theorem State.setReg_report (s : State) (x : Reg) (v : Byte) : (s.setReg x v).report = s.report := rfl
@[simp] theorem State.setReg_draws (s : State) (x : Reg) (v : Byte) : (s.setReg x v).draws = s.draws := rfl

@[simp] theorem State.setRegs_mem (s : State) (V : Vector Byte 16) : (s.setRegs V).mem = s.mem := rfl
@[simp] theorem State.setRegs_V (s : State) (V : Vector Byte 16) : (s.setRegs V).V = V := rfl
@[simp] theorem State.setRegs_I (s : State) (V : Vector Byte 16) : (s.setRegs V).I = s.I := rfl
@[simp] theorem State.setRegs_pc (s : State) (V : Vector Byte 16) : (s.setRegs V).pc = s.pc := rfl
@[simp] theorem State.setRegs_stack (s : State) (V : Vector Byte 16) : (s.setRegs V).stack = s.stack := rfl
@[simp] theorem State.setRegs_sp (s : State) (V : Vector Byte 16) : (s.setRegs V).sp = s.sp := rfl
@[simp] theorem State.setRegs_DT (s : State) (V : Vector Byte 16) : (s.setRegs V).DT = s.DT := rfl
@[simp] theorem State.setRegs_ST (s : State) (V : Vector Byte 16) : (s.setRegs V).ST = s.ST := rfl
@[simp] theorem State.setRegs_fb (s : State) (V : Vector Byte 16) : (s.setRegs V).fb = s.fb := rfl
@[simp] theorem State.setRegs_key (s : State) (V : Vector Byte 16) : (s.setRegs V).key = s.key := rfl
@[simp] theorem State.setRegs_mode (s : State) (V : Vector Byte 16) : (s.setRegs V).mode = s.mode := rfl
@[simp] theorem State.setRegs_report (s : State) (V : Vector Byte 16) : (s.setRegs V).report = s.report := rfl
@[simp] theorem State.setRegs_draws (s : State) (V : Vector Byte 16) : (s.setRegs V).draws = s.draws := rfl

@[simp] theorem State.setI_mem (s : State) (v : Word) : (s.setI v).mem = s.mem := rfl
@[simp] theorem State.setI_V (s : State) (v : Word) : (s.setI v).V = s.V := rfl
@[simp] theorem State.setI_I (s : State) (v : Word) : (s.setI v).I = v := rfl
@[simp] theorem State.setI_pc (s : State) (v : Word) : (s.setI v).pc = s.pc := rfl
@[simp] theorem State.setI_stack (s : State) (v : Word) : (s.setI v).stack = s.stack := rfl
@[simp] theorem State.setI_sp (s : State) (v : Word) : (s.setI v).sp = s.sp := rfl
@[simp] theorem State.setI_DT (s : State) (v : Word) : (s.setI v).DT = s.DT := rfl
@[simp] theorem State.setI_ST (s : State) (v : Word) : (s.setI v).ST = s.ST := rfl
@[simp] theorem State.setI_fb (s : State) (v : Word) : (s.setI v).fb = s.fb := rfl
@[simp] theorem State.setI_key (s : State) (v : Word) : (s.setI v).key = s.key := rfl
@[simp] theorem State.setI_mode (s : State) (v : Word) : (s.setI v).mode = s.mode := rfl
@[simp] theorem State.setI_report (s : State) (v : Word) : (s.setI v).report = s.report := rfl
@[simp] theorem State.setI_draws (s : State) (v : Word) : (s.setI v).draws = s.draws := rfl
@[simp] theorem State.setI_reg (s : State) (v : Word) (y : Reg) : (s.setI v).reg y = s.reg y := rfl

@[simp] theorem State.setPc_mem (s : State) (v : Word) : (s.setPc v).mem = s.mem := rfl
@[simp] theorem State.setPc_V (s : State) (v : Word) : (s.setPc v).V = s.V := rfl
@[simp] theorem State.setPc_I (s : State) (v : Word) : (s.setPc v).I = s.I := rfl
@[simp] theorem State.setPc_pc (s : State) (v : Word) : (s.setPc v).pc = v := rfl
@[simp] theorem State.setPc_stack (s : State) (v : Word) : (s.setPc v).stack = s.stack := rfl
@[simp] theorem State.setPc_sp (s : State) (v : Word) : (s.setPc v).sp = s.sp := rfl
@[simp] theorem State.setPc_DT (s : State) (v : Word) : (s.setPc v).DT = s.DT := rfl
@[simp] theorem State.setPc_ST (s : State) (v : Word) : (s.setPc v).ST = s.ST := rfl
@[simp] theorem State.setPc_fb (s : State) (v : Word) : (s.setPc v).fb = s.fb := rfl
@[simp] theorem State.setPc_key (s : State) (v : Word) : (s.setPc v).key = s.key := rfl
@[simp] theorem State.setPc_mode (s : State) (v : Word) : (s.setPc v).mode = s.mode := rfl
@[simp] theorem State.setPc_report (s : State) (v : Word) : (s.setPc v).report = s.report := rfl
@[simp] theorem State.setPc_draws (s : State) (v : Word) : (s.setPc v).draws = s.draws := rfl
@[simp] theorem State.setPc_reg (s : State) (v : Word) (y : Reg) : (s.setPc v).reg y = s.reg y := rfl

@[simp] theorem State.setSlot_mem (s : State) (j : Fin 16) (v : Word) : (s.setSlot j v).mem = s.mem := rfl
@[simp] theorem State.setSlot_V (s : State) (j : Fin 16) (v : Word) : (s.setSlot j v).V = s.V := rfl
@[simp] theorem State.setSlot_I (s : State) (j : Fin 16) (v : Word) : (s.setSlot j v).I = s.I := rfl
@[simp] theorem State.setSlot_pc (s : State) (j : Fin 16) (v : Word) : (s.setSlot j v).pc = s.pc := rfl
@[simp] theorem State.setSlot_stack (s : State) (j : Fin 16) (v : Word) : (s.setSlot j v).stack = s.stack.set j v := rfl
@[simp] theorem State.setSlot_sp (s : State) (j : Fin 16) (v : Word) : (s.setSlot j v).sp = s.sp := rfl
@[simp] theorem State.setSlot_DT (s : State) (j : Fin 16) (v : Word) : (s.setSlot j v).DT = s.DT := rfl
@[simp] theorem State.setSlot_ST (s : State) (j : Fin 16) (v : Word) : (s.setSlot j v).ST = s.ST := rfl
@[simp] theorem State.setSlot_fb (s : State) (j : Fin 16) (v : Word) : (s.setSlot j v).fb = s.fb := rfl
@[simp] theorem State.setSlot_key (s : State) (j : Fin 16) (v : Word) : (s.setSlot j v).key = s.key := rfl
@[simp] theorem State.setSlot_mode (s : State) (j : Fin 16) (v : Word) : (s.setSlot j v).mode = s.mode := rfl
@[simp] theorem State.setSlot_report (s : State) (j : Fin 16) (v : Word) : (s.setSlot j v).report = s.report := rfl
@[simp] theorem State.setSlot_draws (s : State) (j : Fin 16) (v : Word) : (s.setSlot j v).draws = s.draws := rfl
@[simp] theorem State.setSlot_reg (s : State) (j : Fin 16) (v : Word) (y : Reg) : (s.setSlot j v).reg y = s.reg y := rfl

@[simp] theorem State.setSp_mem (s : State) (v : Fin 17) : (s.setSp v).mem = s.mem := rfl
@[simp] theorem State.setSp_V (s : State) (v : Fin 17) : (s.setSp v).V = s.V := rfl
@[simp] theorem State.setSp_I (s : State) (v : Fin 17) : (s.setSp v).I = s.I := rfl
@[simp] theorem State.setSp_pc (s : State) (v : Fin 17) : (s.setSp v).pc = s.pc := rfl
@[simp] theorem State.setSp_stack (s : State) (v : Fin 17) : (s.setSp v).stack = s.stack := rfl
@[simp] theorem State.setSp_sp (s : State) (v : Fin 17) : (s.setSp v).sp = v := rfl
@[simp] theorem State.setSp_DT (s : State) (v : Fin 17) : (s.setSp v).DT = s.DT := rfl
@[simp] theorem State.setSp_ST (s : State) (v : Fin 17) : (s.setSp v).ST = s.ST := rfl
@[simp] theorem State.setSp_fb (s : State) (v : Fin 17) : (s.setSp v).fb = s.fb := rfl
@[simp] theorem State.setSp_key (s : State) (v : Fin 17) : (s.setSp v).key = s.key := rfl
@[simp] theorem State.setSp_mode (s : State) (v : Fin 17) : (s.setSp v).mode = s.mode := rfl
@[simp] theorem State.setSp_report (s : State) (v : Fin 17) : (s.setSp v).report = s.report := rfl
@[simp] theorem State.setSp_draws (s : State) (v : Fin 17) : (s.setSp v).draws = s.draws := rfl
@[simp] theorem State.setSp_reg (s : State) (v : Fin 17) (y : Reg) : (s.setSp v).reg y = s.reg y := rfl

@[simp] theorem State.setDT_mem (s : State) (v : Byte) : (s.setDT v).mem = s.mem := rfl
@[simp] theorem State.setDT_V (s : State) (v : Byte) : (s.setDT v).V = s.V := rfl
@[simp] theorem State.setDT_I (s : State) (v : Byte) : (s.setDT v).I = s.I := rfl
@[simp] theorem State.setDT_pc (s : State) (v : Byte) : (s.setDT v).pc = s.pc := rfl
@[simp] theorem State.setDT_stack (s : State) (v : Byte) : (s.setDT v).stack = s.stack := rfl
@[simp] theorem State.setDT_sp (s : State) (v : Byte) : (s.setDT v).sp = s.sp := rfl
@[simp] theorem State.setDT_DT (s : State) (v : Byte) : (s.setDT v).DT = v := rfl
@[simp] theorem State.setDT_ST (s : State) (v : Byte) : (s.setDT v).ST = s.ST := rfl
@[simp] theorem State.setDT_fb (s : State) (v : Byte) : (s.setDT v).fb = s.fb := rfl
@[simp] theorem State.setDT_key (s : State) (v : Byte) : (s.setDT v).key = s.key := rfl
@[simp] theorem State.setDT_mode (s : State) (v : Byte) : (s.setDT v).mode = s.mode := rfl
@[simp] theorem State.setDT_report (s : State) (v : Byte) : (s.setDT v).report = s.report := rfl
@[simp] theorem State.setDT_draws (s : State) (v : Byte) : (s.setDT v).draws = s.draws := rfl
@[simp] theorem State.setDT_reg (s : State) (v : Byte) (y : Reg) : (s.setDT v).reg y = s.reg y := rfl

@[simp] theorem State.setST_mem (s : State) (v : Byte) : (s.setST v).mem = s.mem := rfl
@[simp] theorem State.setST_V (s : State) (v : Byte) : (s.setST v).V = s.V := rfl
@[simp] theorem State.setST_I (s : State) (v : Byte) : (s.setST v).I = s.I := rfl
@[simp] theorem State.setST_pc (s : State) (v : Byte) : (s.setST v).pc = s.pc := rfl
@[simp] theorem State.setST_stack (s : State) (v : Byte) : (s.setST v).stack = s.stack := rfl
@[simp] theorem State.setST_sp (s : State) (v : Byte) : (s.setST v).sp = s.sp := rfl
@[simp] theorem State.setST_DT (s : State) (v : Byte) : (s.setST v).DT = s.DT := rfl
@[simp] theorem State.setST_ST (s : State) (v : Byte) : (s.setST v).ST = v := rfl
@[simp] theorem State.setST_fb (s : State) (v : Byte) : (s.setST v).fb = s.fb := rfl
@[simp] theorem State.setST_key (s : State) (v : Byte) : (s.setST v).key = s.key := rfl
@[simp] theorem State.setST_mode (s : State) (v : Byte) : (s.setST v).mode = s.mode := rfl
@[simp] theorem State.setST_report (s : State) (v : Byte) : (s.setST v).report = s.report := rfl
@[simp] theorem State.setST_draws (s : State) (v : Byte) : (s.setST v).draws = s.draws := rfl
@[simp] theorem State.setST_reg (s : State) (v : Byte) (y : Reg) : (s.setST v).reg y = s.reg y := rfl

@[simp] theorem State.setFb_mem (s : State) (fb : Framebuffer) : (s.setFb fb).mem = s.mem := rfl
@[simp] theorem State.setFb_V (s : State) (fb : Framebuffer) : (s.setFb fb).V = s.V := rfl
@[simp] theorem State.setFb_I (s : State) (fb : Framebuffer) : (s.setFb fb).I = s.I := rfl
@[simp] theorem State.setFb_pc (s : State) (fb : Framebuffer) : (s.setFb fb).pc = s.pc := rfl
@[simp] theorem State.setFb_stack (s : State) (fb : Framebuffer) : (s.setFb fb).stack = s.stack := rfl
@[simp] theorem State.setFb_sp (s : State) (fb : Framebuffer) : (s.setFb fb).sp = s.sp := rfl
@[simp] theorem State.setFb_DT (s : State) (fb : Framebuffer) : (s.setFb fb).DT = s.DT := rfl
@[simp] theorem State.setFb_ST (s : State) (fb : Framebuffer) : (s.setFb fb).ST = s.ST := rfl
@[simp] theorem State.setFb_fb (s : State) (fb : Framebuffer) : (s.setFb fb).fb = fb := rfl
@[simp] theorem State.setFb_key (s : State) (fb : Framebuffer) : (s.setFb fb).key = s.key := rfl
@[simp] theorem State.setFb_mode (s : State) (fb : Framebuffer) : (s.setFb fb).mode = s.mode := rfl
@[simp] theorem State.setFb_report (s : State) (fb : Framebuffer) : (s.setFb fb).report = s.report := rfl
@[simp] theorem State.setFb_draws (s : State) (fb : Framebuffer) : (s.setFb fb).draws = s.draws := rfl
@[simp] theorem State.setFb_reg (s : State) (fb : Framebuffer) (y : Reg) : (s.setFb fb).reg y = s.reg y := rfl

@[simp] theorem State.setKeyFlag_mem (s : State) (k : Key) (b : Bool) : (s.setKeyFlag k b).mem = s.mem := rfl
@[simp] theorem State.setKeyFlag_V (s : State) (k : Key) (b : Bool) : (s.setKeyFlag k b).V = s.V := rfl
@[simp] theorem State.setKeyFlag_I (s : State) (k : Key) (b : Bool) : (s.setKeyFlag k b).I = s.I := rfl
@[simp] theorem State.setKeyFlag_pc (s : State) (k : Key) (b : Bool) : (s.setKeyFlag k b).pc = s.pc := rfl
@[simp] theorem State.setKeyFlag_stack (s : State) (k : Key) (b : Bool) : (s.setKeyFlag k b).stack = s.stack := rfl
@[simp] theorem State.setKeyFlag_sp (s : State) (k : Key) (b : Bool) : (s.setKeyFlag k b).sp = s.sp := rfl
@[simp] theorem State.setKeyFlag_DT (s : State) (k : Key) (b : Bool) : (s.setKeyFlag k b).DT = s.DT := rfl
@[simp] theorem State.setKeyFlag_ST (s : State) (k : Key) (b : Bool) : (s.setKeyFlag k b).ST = s.ST := rfl
@[simp] theorem State.setKeyFlag_fb (s : State) (k : Key) (b : Bool) : (s.setKeyFlag k b).fb = s.fb := rfl
@[simp] theorem State.setKeyFlag_key (s : State) (k : Key) (b : Bool) : (s.setKeyFlag k b).key = s.key.set k b := rfl
@[simp] theorem State.setKeyFlag_mode (s : State) (k : Key) (b : Bool) : (s.setKeyFlag k b).mode = s.mode := rfl
@[simp] theorem State.setKeyFlag_report (s : State) (k : Key) (b : Bool) : (s.setKeyFlag k b).report = s.report := rfl
@[simp] theorem State.setKeyFlag_draws (s : State) (k : Key) (b : Bool) : (s.setKeyFlag k b).draws = s.draws := rfl
@[simp] theorem State.setKeyFlag_reg (s : State) (k : Key) (b : Bool) (y : Reg) : (s.setKeyFlag k b).reg y = s.reg y := rfl

@[simp] theorem State.setMode_mem (s : State) (m : Mode) : (s.setMode m).mem = s.mem := rfl
@[simp] theorem State.setMode_V (s : State) (m : Mode) : (s.setMode m).V = s.V := rfl
@[simp] theorem State.setMode_I (s : State) (m : Mode) : (s.setMode m).I = s.I := rfl
@[simp] theorem State.setMode_pc (s : State) (m : Mode) : (s.setMode m).pc = s.pc := rfl
@[simp] theorem State.setMode_stack (s : State) (m : Mode) : (s.setMode m).stack = s.stack := rfl
@[simp] theorem State.setMode_sp (s : State) (m : Mode) : (s.setMode m).sp = s.sp := rfl
@[simp] theorem State.setMode_DT (s : State) (m : Mode) : (s.setMode m).DT = s.DT := rfl
@[simp] theorem State.setMode_ST (s : State) (m : Mode) : (s.setMode m).ST = s.ST := rfl
@[simp] theorem State.setMode_fb (s : State) (m : Mode) : (s.setMode m).fb = s.fb := rfl
@[simp] theorem State.setMode_key (s : State) (m : Mode) : (s.setMode m).key = s.key := rfl
@[simp] theorem State.setMode_mode (s : State) (m : Mode) : (s.setMode m).mode = m := rfl
@[simp] theorem State.setMode_report (s : State) (m : Mode) : (s.setMode m).report = s.report := rfl
@[simp] theorem State.setMode_draws (s : State) (m : Mode) : (s.setMode m).draws = s.draws := rfl
@[simp] theorem State.setMode_reg (s : State) (m : Mode) (y : Reg) : (s.setMode m).reg y = s.reg y := rfl

@[simp] theorem State.setMem_mem (s : State) (m : Memory) : (s.setMem m).mem = m := rfl
@[simp] theorem State.setMem_V (s : State) (m : Memory) : (s.setMem m).V = s.V := rfl
@[simp] theorem State.setMem_I (s : State) (m : Memory) : (s.setMem m).I = s.I := rfl
@[simp] theorem State.setMem_pc (s : State) (m : Memory) : (s.setMem m).pc = s.pc := rfl
@[simp] theorem State.setMem_stack (s : State) (m : Memory) : (s.setMem m).stack = s.stack := rfl
@[simp] theorem State.setMem_sp (s : State) (m : Memory) : (s.setMem m).sp = s.sp := rfl
@[simp] theorem State.setMem_DT (s : State) (m : Memory) : (s.setMem m).DT = s.DT := rfl
@[simp] theorem State.setMem_ST (s : State) (m : Memory) : (s.setMem m).ST = s.ST := rfl
@[simp] theorem State.setMem_fb (s : State) (m : Memory) : (s.setMem m).fb = s.fb := rfl
@[simp] theorem State.setMem_key (s : State) (m : Memory) : (s.setMem m).key = s.key := rfl
@[simp] theorem State.setMem_mode (s : State) (m : Memory) : (s.setMem m).mode = s.mode := rfl
@[simp] theorem State.setMem_report (s : State) (m : Memory) : (s.setMem m).report = s.report := rfl
@[simp] theorem State.setMem_draws (s : State) (m : Memory) : (s.setMem m).draws = s.draws := rfl
@[simp] theorem State.setMem_reg (s : State) (m : Memory) (y : Reg) : (s.setMem m).reg y = s.reg y := rfl

@[simp] theorem State.setReport_mem (s : State) (r : StepResult) : (s.setReport r).mem = s.mem := rfl
@[simp] theorem State.setReport_V (s : State) (r : StepResult) : (s.setReport r).V = s.V := rfl
@[simp] theorem State.setReport_I (s : State) (r : StepResult) : (s.setReport r).I = s.I := rfl
@[simp] theorem State.setReport_pc (s : State) (r : StepResult) : (s.setReport r).pc = s.pc := rfl
@[simp] theorem State.setReport_stack (s : State) (r : StepResult) : (s.setReport r).stack = s.stack := rfl
@[simp] theorem State.setReport_sp (s : State) (r : StepResult) : (s.setReport r).sp = s.sp := rfl
@[simp] theorem State.setReport_DT (s : State) (r : StepResult) : (s.setReport r).DT = s.DT := rfl
@[simp] theorem State.setReport_ST (s : State) (r : StepResult) : (s.setReport r).ST = s.ST := rfl
@[simp] theorem State.setReport_fb (s : State) (r : StepResult) : (s.setReport r).fb = s.fb := rfl
@[simp] theorem State.setReport_key (s : State) (r : StepResult) : (s.setReport r).key = s.key := rfl
@[simp] theorem State.setReport_mode (s : State) (r : StepResult) : (s.setReport r).mode = s.mode := rfl
@[simp] theorem State.setReport_report (s : State) (r : StepResult) : (s.setReport r).report = some r := rfl
@[simp] theorem State.setReport_draws (s : State) (r : StepResult) : (s.setReport r).draws = s.draws := rfl
@[simp] theorem State.setReport_reg (s : State) (r : StepResult) (y : Reg) : (s.setReport r).reg y = s.reg y := rfl

@[simp] theorem State.nextDraw_mem (s : State) : (s.nextDraw).mem = s.mem := rfl
@[simp] theorem State.nextDraw_V (s : State) : (s.nextDraw).V = s.V := rfl
@[simp] theorem State.nextDraw_I (s : State) : (s.nextDraw).I = s.I := rfl
@[simp] theorem State.nextDraw_pc (s : State) : (s.nextDraw).pc = s.pc := rfl
@[simp] theorem State.nextDraw_stack (s : State) : (s.nextDraw).stack = s.stack := rfl
@[simp] theorem State.nextDraw_sp (s : State) : (s.nextDraw).sp = s.sp := rfl
@[simp] theorem State.nextDraw_DT (s : State) : (s.nextDraw).DT = s.DT := rfl
@[simp] theorem State.nextDraw_ST (s : State) : (s.nextDraw).ST = s.ST := rfl
@[simp] theorem State.nextDraw_fb (s : State) : (s.nextDraw).fb = s.fb := rfl
@[simp] theorem State.nextDraw_key (s : State) : (s.nextDraw).key = s.key := rfl
@[simp] theorem State.nextDraw_mode (s : State) : (s.nextDraw).mode = s.mode := rfl
@[simp] theorem State.nextDraw_report (s : State) : (s.nextDraw).report = s.report := rfl
@[simp] theorem State.nextDraw_draws (s : State) : (s.nextDraw).draws = s.draws + 1 := rfl
@[simp] theorem State.nextDraw_reg (s : State) (y : Reg) : (s.nextDraw).reg y = s.reg y := rfl

@[simp] theorem State.advance_mem (s : State) : (s.advance).mem = s.mem := rfl
@[simp] theorem State.advance_V (s : State) : (s.advance).V = s.V := rfl
@[simp] theorem State.advance_I (s : State) : (s.advance).I = s.I := rfl
@[simp] theorem State.advance_pc (s : State) : (s.advance).pc = s.pc + 2 := rfl
@[simp] theorem State.advance_stack (s : State) : (s.advance).stack = s.stack := rfl
@[simp] theorem State.advance_sp (s : State) : (s.advance).sp = s.sp := rfl
@[simp] theorem State.advance_DT (s : State) : (s.advance).DT = s.DT := rfl
@[simp] theorem State.advance_ST (s : State) : (s.advance).ST = s.ST := rfl
@[simp] theorem State.advance_fb (s : State) : (s.advance).fb = s.fb := rfl
@[simp] theorem State.advance_key (s : State) : (s.advance).key = s.key := rfl
@[simp] theorem State.advance_mode (s : State) : (s.advance).mode = s.mode := rfl
@[simp] theorem State.advance_report (s : State) : (s.advance).report = s.report := rfl
@[simp] theorem State.advance_draws (s : State) : (s.advance).draws = s.draws := rfl
@[simp] theorem State.advance_reg (s : State) (y : Reg) : (s.advance).reg y = s.reg y := rfl

@[simp] theorem State.reportMode_mem (s : State) : (s.reportMode).mem = s.mem := rfl
@[simp] theorem State.reportMode_V (s : State) : (s.reportMode).V = s.V := rfl
@[simp] theorem State.reportMode_I (s : State) : (s.reportMode).I = s.I := rfl
@[simp] theorem State.reportMode_pc (s : State) : (s.reportMode).pc = s.pc := rfl
@[simp] theorem State.reportMode_stack (s : State) : (s.reportMode).stack = s.stack := rfl
@[simp] theorem State.reportMode_sp (s : State) : (s.reportMode).sp = s.sp := rfl
@[simp] theorem State.reportMode_DT (s : State) : (s.reportMode).DT = s.DT := rfl
@[simp] theorem State.reportMode_ST (s : State) : (s.reportMode).ST = s.ST := rfl
@[simp] theorem State.reportMode_fb (s : State) : (s.reportMode).fb = s.fb := rfl
@[simp] theorem State.reportMode_key (s : State) : (s.reportMode).key = s.key := rfl
@[simp] theorem State.reportMode_mode (s : State) : (s.reportMode).mode = s.mode := rfl
@[simp] theorem State.reportMode_report (s : State) : (s.reportMode).report = some (resultOfMode s.mode) := rfl
@[simp] theorem State.reportMode_draws (s : State) : (s.reportMode).draws = s.draws := rfl
@[simp] theorem State.reportMode_reg (s : State) (y : Reg) : (s.reportMode).reg y = s.reg y := rfl

@[simp] theorem State.setReg_reg (s : State) (x : Reg) (v : Byte) (y : Reg) :
    (s.setReg x v).reg y = if y = x then v else s.reg y := by
  simp [State.reg, Vector.getElem_set, Fin.val_inj, eq_comm]

@[simp] theorem State.setReg_reg_same (s : State) (x : Reg) (v : Byte) : (s.setReg x v).reg x = v := by simp

@[simp] theorem State.setRegs_reg (s : State) (V : Vector Byte 16) (y : Reg) : (s.setRegs V).reg y = V[y] := rfl

end Sys2Proof.Machine
end

