-- ==== Sys2Proof/Laws/Ops.lean ====
section
/-! SUPPORT. For each shared operation, one lemma that says everything it can do. -/

namespace Sys2Proof.Machine

/-- Raising a fatal condition changes the mode and nothing else (60_exceptions.md R222). -/
theorem raiseFatal_eq (k : Fault) (s : State) : raiseFatal k s = .next (s.setMode (.halted k)) := rfl

@[simp] theorem finish_ok (s t : State) : finish s (.ok t) = .next t := rfl

@[simp] theorem finish_error (s : State) (k : Fault) : finish s (.error k) = .next (s.setMode (.halted k)) := rfl

/-- An instruction always ends in a next state: its own, or the halt that discards it (60_exceptions.md R222, R224). -/
theorem finish_cases (s : State) (r : Except Fault State) :
    (∃ t, r = .ok t ∧ finish s r = .next t) ∨
    (∃ k, r = .error k ∧ finish s r = .next (s.setMode (.halted k))) := by
  cases r with
  | ok t => exact .inl ⟨t, rfl, rfl⟩
  | error k => exact .inr ⟨k, rfl, rfl⟩

/-- Everything `push` can do (41_control_flow.md R123). -/
theorem push_cases (s : State) (v : Word) :
    (∃ h : s.sp.val < 16, push s v = .ok ((s.setSlot ⟨s.sp.val, h⟩ v).setSp ⟨s.sp.val + 1, by omega⟩)) ∨
    (s.sp.val = 16 ∧ push s v = .error .stackOverflow) := by
  by_cases h : s.sp.val < 16
  · exact .inl ⟨h, by simp [push, h]⟩
  · exact .inr ⟨by omega, by simp [push, h]⟩

/-- Everything `pop` can do (41_control_flow.md R121). -/
theorem pop_cases (s : State) :
    (∃ h : 0 < s.sp.val, pop s = .ok (s.stack[s.sp.val - 1]'(by omega), s.setSp ⟨s.sp.val - 1, by omega⟩)) ∨
    (s.sp.val = 0 ∧ pop s = .error .stackUnderflow) := by
  by_cases h : 0 < s.sp.val
  · exact .inl ⟨h, by simp [pop, h]⟩
  · exact .inr ⟨by omega, by simp [pop, h]⟩

/-- Everything `fetch` can do (40_cycle.md R101, R102). -/
theorem fetch_cases (s : State) :
    (s.pc.toNat ≤ 0xFFE ∧
      fetch s = .ok (wordOfBytes (s.mem.read s.pc.toNat) (s.mem.read (s.pc.toNat + 1)))) ∨
    (0xFFE < s.pc.toNat ∧ fetch s = .error .fetchOutOfRange) := by
  by_cases h : s.pc.toNat ≤ 0xFFE
  · exact .inl ⟨h, by simp [fetch, h]⟩
  · exact .inr ⟨by omega, by simp [fetch, h]⟩

/-- Everything the key a register names can be (45_timers_input.md R200). -/
theorem keyOfReg_cases (s : State) (x : Reg) :
    (∃ h : (s.reg x).toNat < 16, keyOfReg s x = .ok (s.key[(s.reg x).toNat])) ∨
    (15 < (s.reg x).toNat ∧ keyOfReg s x = .error .keyIndexOutOfRange) := by
  by_cases h : (s.reg x).toNat < 16
  · exact .inl ⟨h, by simp [keyOfReg, h]⟩
  · exact .inr ⟨by omega, by simp [keyOfReg, h]⟩

/-- A skip writes `pc` and nothing else (41_control_flow.md R120). -/
theorem skipIf_eq (s : State) (c : Bool) : skipIf s c = s.setPc (if c then s.pc + 4 else s.pc + 2) := by
  cases c <;> rfl

/-- A result and a flag where they go to two registers (42_alu.md R149 to R153). -/
theorem writeWithFlag_of_ne {x : Reg} (h : x ≠ VF) (s : State) (r : Byte) (c : Bool) :
    writeWithFlag s x r c = (s.setReg x r).setReg VF (flagByte c) := by
  simp only [writeWithFlag, if_neg h]

/-- A result and a flag that both go to `VF`: the free value (42_alu.md R141). -/
theorem writeWithFlag_VF (s : State) (r : Byte) (c : Bool) :
    writeWithFlag s VF r c = (s.setReg VF (Config.anyByte s.draws)).nextDraw := by
  simp [writeWithFlag, State.setReg, State.nextDraw, VF]

/-- What FX65 leaves in each register (43_index_memory.md R175). -/
theorem loadRegs_getElem (V : Vector Byte 16) (x : Reg) (bytes : List Byte) (k : Reg) :
    (loadRegs V x bytes)[k] = if k.val ≤ x.val then bytes.getD k.val 0 else V[k] := by
  simp [loadRegs]

/-- The bytes FX55 stores (43_index_memory.md R174). -/
theorem regsUpTo_length (s : State) (x : Reg) : (regsUpTo s x).length = x.val + 1 := by
  simp only [regsUpTo, List.length_take, Vector.length_toList]
  omega

theorem regsUpTo_getD (s : State) (x k : Reg) (h : k.val ≤ x.val) : (regsUpTo s x).getD k.val 0 = s.reg k := by
  simp only [regsUpTo, State.reg, List.getD_eq_getElem?_getD]
  rw [List.getElem?_take_of_lt (by omega)]
  simp

theorem decimalDigits_length (v : Byte) : (decimalDigits v).length = 3 := rfl

/-- Everything a store at `I` can do (43_index_memory.md R173, R174). -/
theorem storeAtI_cases (s : State) (bytes : List Byte) :
    (inRange s.I.toNat bytes.length = true ∧
      storeAtI s bytes = .next (s.setMem (s.mem.storeAll s.I.toNat bytes)).advance) ∨
    (inRange s.I.toNat bytes.length = false ∧ storeAtI s bytes = .next (s.setMode (.halted .memoryOutOfRange))) := by
  rcases s.mem.writeBytes_cases s.I.toNat bytes with ⟨hr, he⟩ | ⟨hr, he⟩
  · exact .inl ⟨hr, by simp only [storeAtI, State.dataBase, he, finish_ok]⟩
  · exact .inr ⟨hr, by simp only [storeAtI, State.dataBase, he, finish_error]⟩

@[simp] theorem reported_next (t : State) : reported (.next t) = .next t.reportMode := rfl

/-- Every outcome of a step (40_cycle.md R101 to R108). -/
theorem step_cases (s : State) :
    (s.mode ≠ .running ∧ step s = .next s.reportMode) ∨
    (s.mode = .running ∧ 0xFFE < s.pc.toNat ∧
      step s = .next (s.setMode (.halted .fetchOutOfRange)).reportMode) ∨
    (s.mode = .running ∧ s.pc.toNat ≤ 0xFFE ∧
      ∃ op, op = wordOfBytes (s.mem.read s.pc.toNat) (s.mem.read (s.pc.toNat + 1)) ∧
        ((∃ e, decodeWord op = .error e ∧ step s = .next (s.advance.setReport (.unknown s.pc op))) ∨
         (∃ i, decodeWord op = .ok i ∧ step s = reported (exec i s)))) := by
  cases hm : s.mode with
  | halted k => exact .inl ⟨by simp, by simp [step, hm]⟩
  | awaitingKey x => exact .inl ⟨by simp, by simp [step, hm]⟩
  | running =>
    rcases fetch_cases s with ⟨hp, hf⟩ | ⟨hp, hf⟩
    · refine .inr (.inr ⟨rfl, hp, _, rfl, ?_⟩)
      cases hd : decodeWord (wordOfBytes (s.mem.read s.pc.toNat) (s.mem.read (s.pc.toNat + 1))) with
      | error e => exact .inl ⟨e, rfl, by simp [step, hm, hf, hd, skipUnknown]⟩
      | ok i => exact .inr ⟨i, rfl, by simp [step, hm, hf, hd]⟩
    · exact .inr (.inl ⟨rfl, hp, by simp [step, hm, hf, raiseFatal_eq]⟩)

end Sys2Proof.Machine
end

