-- ==== Sys2Proof/Laws/Exec.lean ====
section
/-! SUPPORT. What the state after an instruction can be, said once for every instruction: the halt, or the instruction's own
effect. Later proofs about all instructions start here and unfold no meaning. -/

namespace Sys2Proof.Machine

theorem writeWithFlag_shape (s : State) (x : Reg) (r : Byte) (c : Bool) :
    ∃ V n, writeWithFlag s x r c = { s with V := V, draws := n } := by
  simp only [writeWithFlag]
  split <;> exact ⟨_, _, rfl⟩

@[simp] theorem writeWithFlag_mem (s x r c) : (writeWithFlag s x r c).mem = s.mem := by
  obtain ⟨V, n, h⟩ := writeWithFlag_shape s x r c; rw [h]
@[simp] theorem writeWithFlag_I (s x r c) : (writeWithFlag s x r c).I = s.I := by
  obtain ⟨V, n, h⟩ := writeWithFlag_shape s x r c; rw [h]
@[simp] theorem writeWithFlag_pc (s x r c) : (writeWithFlag s x r c).pc = s.pc := by
  obtain ⟨V, n, h⟩ := writeWithFlag_shape s x r c; rw [h]
@[simp] theorem writeWithFlag_stack (s x r c) : (writeWithFlag s x r c).stack = s.stack := by
  obtain ⟨V, n, h⟩ := writeWithFlag_shape s x r c; rw [h]
@[simp] theorem writeWithFlag_sp (s x r c) : (writeWithFlag s x r c).sp = s.sp := by
  obtain ⟨V, n, h⟩ := writeWithFlag_shape s x r c; rw [h]
@[simp] theorem writeWithFlag_DT (s x r c) : (writeWithFlag s x r c).DT = s.DT := by
  obtain ⟨V, n, h⟩ := writeWithFlag_shape s x r c; rw [h]
@[simp] theorem writeWithFlag_ST (s x r c) : (writeWithFlag s x r c).ST = s.ST := by
  obtain ⟨V, n, h⟩ := writeWithFlag_shape s x r c; rw [h]
@[simp] theorem writeWithFlag_fb (s x r c) : (writeWithFlag s x r c).fb = s.fb := by
  obtain ⟨V, n, h⟩ := writeWithFlag_shape s x r c; rw [h]
@[simp] theorem writeWithFlag_key (s x r c) : (writeWithFlag s x r c).key = s.key := by
  obtain ⟨V, n, h⟩ := writeWithFlag_shape s x r c; rw [h]
@[simp] theorem writeWithFlag_mode (s x r c) : (writeWithFlag s x r c).mode = s.mode := by
  obtain ⟨V, n, h⟩ := writeWithFlag_shape s x r c; rw [h]
@[simp] theorem writeWithFlag_report (s x r c) : (writeWithFlag s x r c).report = s.report := by
  obtain ⟨V, n, h⟩ := writeWithFlag_shape s x r c; rw [h]

/-- The state an instruction leaves when it raises no fatal condition. -/
def Effect (i : Instr) (s t : State) : Prop :=
  match i with
  | .cls => t = (s.setFb Framebuffer.blank).advance
  | .ret => ∃ h : 0 < s.sp.val, t = (s.setSp ⟨s.sp.val - 1, by omega⟩).setPc (s.stack[s.sp.val - 1]'(by omega))
  | .jp nnn => t = s.setPc (zext12 nnn)
  | .call nnn => ∃ h : s.sp.val < 16,
      t = ((s.setSlot ⟨s.sp.val, h⟩ (s.pc + 2)).setSp ⟨s.sp.val + 1, by omega⟩).setPc (zext12 nnn)
  | .seImm x nn => t = s.setPc (if s.reg x == nn then s.pc + 4 else s.pc + 2)
  | .sneImm x nn => t = s.setPc (if s.reg x != nn then s.pc + 4 else s.pc + 2)
  | .seReg x y => t = s.setPc (if s.reg x == s.reg y then s.pc + 4 else s.pc + 2)
  | .ldImm x nn => t = (s.setReg x nn).advance
  | .addImm x nn => t = (s.setReg x (s.reg x + nn)).advance
  | .ldReg x y => t = (s.setReg x (s.reg y)).advance
  | .orReg x y => t = (s.setReg x (s.reg x ||| s.reg y)).advance
  | .andReg x y => t = (s.setReg x (s.reg x &&& s.reg y)).advance
  | .xorReg x y => t = (s.setReg x (s.reg x ^^^ s.reg y)).advance
  | .addReg x y => t = (writeWithFlag s x (s.reg x + s.reg y) (carryOut (s.reg x) (s.reg y))).advance
  | .sub x y => t = (writeWithFlag s x (s.reg x - s.reg y) (notBorrow (s.reg x) (s.reg y))).advance
  | .shr x _ => t = (writeWithFlag s x (s.reg x >>> 1) (lowBit (s.reg x))).advance
  | .subn x y => t = (writeWithFlag s x (s.reg y - s.reg x) (notBorrow (s.reg y) (s.reg x))).advance
  | .shl x _ => t = (writeWithFlag s x (s.reg x <<< 1) (highBit (s.reg x))).advance
  | .sneReg x y => t = s.setPc (if s.reg x != s.reg y then s.pc + 4 else s.pc + 2)
  | .ldI nnn => t = (s.setI (zext12 nnn)).advance
  | .jpV0 nnn => t = s.setPc (zext12 nnn + zext8 (s.reg 0))
  | .rnd x nn => t = (s.setReg x (Config.randomByte s.draws &&& nn)).nextDraw.advance
  | .drw x y n => ∃ d : Drawing, d = drawSprite ((s.reg x).toNat % 64) ((s.reg y).toNat % 32)
        ((List.range n.val).map fun r => s.mem.read (s.I.toNat + r)) s.fb ∧
      t = ((s.setFb d.fb).setReg VF (flagByte d.collide)).advance
  | .skp x => ∃ h : (s.reg x).toNat < 16, t = s.setPc (if s.key[(s.reg x).toNat] then s.pc + 4 else s.pc + 2)
  | .sknp x => ∃ h : (s.reg x).toNat < 16, t = s.setPc (if !s.key[(s.reg x).toNat] then s.pc + 4 else s.pc + 2)
  | .ldVxDT x => t = (s.setReg x s.DT).advance
  | .ldVxK x => t = s.setMode (.awaitingKey x)
  | .ldDTVx x => t = (s.setDT (s.reg x)).advance
  | .ldSTVx x => t = (s.setST (s.reg x)).advance
  | .addI x => t = (s.setI (s.I + zext8 (s.reg x))).advance
  | .ldF x => t = (s.setI (glyphAddress (s.reg x))).advance
  | .ldB x => s.I.toNat + 3 ≤ 4096 ∧ t = (s.setMem (s.mem.storeAll s.I.toNat (decimalDigits (s.reg x)))).advance
  | .stRegs x => s.I.toNat + x.val + 1 ≤ 4096 ∧ t = (s.setMem (s.mem.storeAll s.I.toNat (regsUpTo s x))).advance
  | .ldRegs x => s.I.toNat + x.val + 1 ≤ 4096 ∧
      t = (s.setRegs (loadRegs s.V x ((List.range (x.val + 1)).map fun k => s.mem.read (s.I.toNat + k)))).advance

theorem inRange_false_iff (a n : Nat) : inRange a n = false ↔ n ≠ 0 ∧ 4096 < a + n := by
  rw [Bool.eq_false_iff, ne_eq, inRange_iff]
  simp only [Config.memSize]
  omega

/-- The inversion of `exec`: if an instruction answers `t`, then `t` is the halt with the instruction's fatal condition, or
the instruction's own effect where it has none. -/
theorem exec_inversion {i : Instr} {s t : State} (h : exec i s = .next t) :
    (∃ k, fatalOf i s = some k ∧ t = s.setMode (.halted k)) ∨ (fatalOf i s = none ∧ Effect i s t) := by
  cases i
  case ret =>
    rcases pop_cases s with ⟨h1, h2⟩ | ⟨h1, h2⟩ <;>
      simp only [exec, execRet, h2, finish_ok, finish_error, Host.Outcome.next.injEq] at h
    · exact .inr ⟨if_neg (by omega), h1, h.symm⟩
    · exact .inl ⟨_, if_pos h1, h.symm⟩
  case call nnn =>
    rcases push_cases s (s.pc + 2) with ⟨h1, h2⟩ | ⟨h1, h2⟩ <;>
      simp only [exec, execCall, h2, finish_ok, finish_error, Host.Outcome.next.injEq] at h
    · exact .inr ⟨if_neg (by omega), h1, h.symm⟩
    · exact .inl ⟨_, if_pos h1, h.symm⟩
  case skp x =>
    rcases keyOfReg_cases s x with ⟨h1, h2⟩ | ⟨h1, h2⟩ <;>
      simp only [exec, execSkp, h2, finish_ok, finish_error, skipIf_eq, Host.Outcome.next.injEq] at h
    · exact .inr ⟨if_neg (by omega), h1, h.symm⟩
    · exact .inl ⟨_, if_pos h1, h.symm⟩
  case sknp x =>
    rcases keyOfReg_cases s x with ⟨h1, h2⟩ | ⟨h1, h2⟩ <;>
      simp only [exec, execSknp, h2, finish_ok, finish_error, skipIf_eq, Host.Outcome.next.injEq] at h
    · exact .inr ⟨if_neg (by omega), h1, h.symm⟩
    · exact .inl ⟨_, if_pos h1, h.symm⟩
  case ldB x =>
    rcases storeAtI_cases s (decimalDigits (s.reg x)) with ⟨h1, h2⟩ | ⟨h1, h2⟩ <;>
      simp only [exec, execLdB, h2, Host.Outcome.next.injEq] at h
    · simp only [inRange_iff, decimalDigits_length, Config.memSize] at h1
      exact .inr ⟨if_neg (by omega), by omega, h.symm⟩
    · simp only [inRange_false_iff, decimalDigits_length] at h1
      exact .inl ⟨_, if_pos (by omega), h.symm⟩
  case stRegs x =>
    rcases storeAtI_cases s (regsUpTo s x) with ⟨h1, h2⟩ | ⟨h1, h2⟩ <;>
      simp only [exec, execStRegs, h2, Host.Outcome.next.injEq] at h
    · simp only [inRange_iff, regsUpTo_length, Config.memSize] at h1
      exact .inr ⟨if_neg (by omega), by omega, h.symm⟩
    · simp only [inRange_false_iff, regsUpTo_length] at h1
      exact .inl ⟨_, if_pos (by omega), h.symm⟩
  case ldRegs x =>
    rcases s.mem.readBytes_cases s.I.toNat (x.val + 1) with ⟨h1, h2⟩ | ⟨h1, h2⟩ <;>
      simp only [exec, execLdRegs, State.dataBase, h2, finish_ok, finish_error, Host.Outcome.next.injEq] at h
    · simp only [inRange_iff, Config.memSize] at h1
      exact .inr ⟨if_neg (by omega), by omega, h.symm⟩
    · simp only [inRange_false_iff] at h1
      exact .inl ⟨_, if_pos (by omega), h.symm⟩
  case drw x y n =>
    rcases s.mem.readBytes_cases s.I.toNat n.val with ⟨h1, h2⟩ | ⟨h1, h2⟩ <;>
      simp only [exec, execDrw, State.dataBase, h2, finish_ok, finish_error, Host.Outcome.next.injEq] at h
    · simp only [inRange_iff, Config.memSize] at h1
      exact .inr ⟨if_neg (by omega), _, rfl, h.symm⟩
    · simp only [inRange_false_iff] at h1
      exact .inl ⟨_, if_pos (by omega), h.symm⟩
  all_goals first
    | exact .inr ⟨rfl, (Host.Outcome.next.inj h).symm⟩
    | (simp only [exec, execSeImm, execSneImm, execSeReg, execSneReg, skipIf_eq, Host.Outcome.next.injEq] at h
       exact .inr ⟨rfl, h.symm⟩)

end Sys2Proof.Machine
end

