-- ==== Sys2Proof/Laws/PerInstr.lean ====
section
/-! SUPPORT. Statements made for every instruction, one lemma per constructor. -/

namespace Sys2Proof.Laws.TableRow

/-- The encoder's word of the instruction passes the bit test of its row of the opcode map (30_encoding.md R74). -/
def Statement (i : Instr) : Prop := i.row.accepts (encode i) = true

theorem cls : Statement .cls := by
  unfold Statement
  decide

theorem ret : Statement .ret := by
  unfold Statement
  decide

theorem jp (nnn : Addr12) : Statement (.jp nnn) := by
  simp only [Statement, OpcodeRow.accepts, Instr.row, encode, beq_iff_eq]
  exact (and_F000 _).trans (by simp only [leadingNibble_layoutNNN]; decide)

theorem call (nnn : Addr12) : Statement (.call nnn) := by
  simp only [Statement, OpcodeRow.accepts, Instr.row, encode, beq_iff_eq]
  exact (and_F000 _).trans (by simp only [leadingNibble_layoutNNN]; decide)

theorem seImm (x : Reg) (nn : Byte) : Statement (.seImm x nn) := by
  simp only [Statement, OpcodeRow.accepts, Instr.row, encode, beq_iff_eq]
  exact (and_F000 _).trans (by simp only [leadingNibble_layoutXNN]; decide)

theorem sneImm (x : Reg) (nn : Byte) : Statement (.sneImm x nn) := by
  simp only [Statement, OpcodeRow.accepts, Instr.row, encode, beq_iff_eq]
  exact (and_F000 _).trans (by simp only [leadingNibble_layoutXNN]; decide)

theorem seReg (x : Reg) (y : Reg) : Statement (.seReg x y) := by
  simp only [Statement, OpcodeRow.accepts, Instr.row, encode, beq_iff_eq]
  exact (and_F00F _).trans (by simp only [leadingNibble_layoutXYN, trailingNibble_layoutXYN]; decide)

theorem ldImm (x : Reg) (nn : Byte) : Statement (.ldImm x nn) := by
  simp only [Statement, OpcodeRow.accepts, Instr.row, encode, beq_iff_eq]
  exact (and_F000 _).trans (by simp only [leadingNibble_layoutXNN]; decide)

theorem addImm (x : Reg) (nn : Byte) : Statement (.addImm x nn) := by
  simp only [Statement, OpcodeRow.accepts, Instr.row, encode, beq_iff_eq]
  exact (and_F000 _).trans (by simp only [leadingNibble_layoutXNN]; decide)

theorem ldReg (x : Reg) (y : Reg) : Statement (.ldReg x y) := by
  simp only [Statement, OpcodeRow.accepts, Instr.row, encode, beq_iff_eq]
  exact (and_F00F _).trans (by simp only [leadingNibble_layoutXYN, trailingNibble_layoutXYN]; decide)

theorem orReg (x : Reg) (y : Reg) : Statement (.orReg x y) := by
  simp only [Statement, OpcodeRow.accepts, Instr.row, encode, beq_iff_eq]
  exact (and_F00F _).trans (by simp only [leadingNibble_layoutXYN, trailingNibble_layoutXYN]; decide)

theorem andReg (x : Reg) (y : Reg) : Statement (.andReg x y) := by
  simp only [Statement, OpcodeRow.accepts, Instr.row, encode, beq_iff_eq]
  exact (and_F00F _).trans (by simp only [leadingNibble_layoutXYN, trailingNibble_layoutXYN]; decide)

theorem xorReg (x : Reg) (y : Reg) : Statement (.xorReg x y) := by
  simp only [Statement, OpcodeRow.accepts, Instr.row, encode, beq_iff_eq]
  exact (and_F00F _).trans (by simp only [leadingNibble_layoutXYN, trailingNibble_layoutXYN]; decide)

theorem addReg (x : Reg) (y : Reg) : Statement (.addReg x y) := by
  simp only [Statement, OpcodeRow.accepts, Instr.row, encode, beq_iff_eq]
  exact (and_F00F _).trans (by simp only [leadingNibble_layoutXYN, trailingNibble_layoutXYN]; decide)

theorem sub (x : Reg) (y : Reg) : Statement (.sub x y) := by
  simp only [Statement, OpcodeRow.accepts, Instr.row, encode, beq_iff_eq]
  exact (and_F00F _).trans (by simp only [leadingNibble_layoutXYN, trailingNibble_layoutXYN]; decide)

theorem shr (x : Reg) (y : Reg) : Statement (.shr x y) := by
  simp only [Statement, OpcodeRow.accepts, Instr.row, encode, beq_iff_eq]
  exact (and_F00F _).trans (by simp only [leadingNibble_layoutXYN, trailingNibble_layoutXYN]; decide)

theorem subn (x : Reg) (y : Reg) : Statement (.subn x y) := by
  simp only [Statement, OpcodeRow.accepts, Instr.row, encode, beq_iff_eq]
  exact (and_F00F _).trans (by simp only [leadingNibble_layoutXYN, trailingNibble_layoutXYN]; decide)

theorem shl (x : Reg) (y : Reg) : Statement (.shl x y) := by
  simp only [Statement, OpcodeRow.accepts, Instr.row, encode, beq_iff_eq]
  exact (and_F00F _).trans (by simp only [leadingNibble_layoutXYN, trailingNibble_layoutXYN]; decide)

theorem sneReg (x : Reg) (y : Reg) : Statement (.sneReg x y) := by
  simp only [Statement, OpcodeRow.accepts, Instr.row, encode, beq_iff_eq]
  exact (and_F00F _).trans (by simp only [leadingNibble_layoutXYN, trailingNibble_layoutXYN]; decide)

theorem ldI (nnn : Addr12) : Statement (.ldI nnn) := by
  simp only [Statement, OpcodeRow.accepts, Instr.row, encode, beq_iff_eq]
  exact (and_F000 _).trans (by simp only [leadingNibble_layoutNNN]; decide)

theorem jpV0 (nnn : Addr12) : Statement (.jpV0 nnn) := by
  simp only [Statement, OpcodeRow.accepts, Instr.row, encode, beq_iff_eq]
  exact (and_F000 _).trans (by simp only [leadingNibble_layoutNNN]; decide)

theorem rnd (x : Reg) (nn : Byte) : Statement (.rnd x nn) := by
  simp only [Statement, OpcodeRow.accepts, Instr.row, encode, beq_iff_eq]
  exact (and_F000 _).trans (by simp only [leadingNibble_layoutXNN]; decide)

theorem drw (x : Reg) (y : Reg) (n : Fin 16) : Statement (.drw x y n) := by
  simp only [Statement, OpcodeRow.accepts, Instr.row, encode, beq_iff_eq]
  exact (and_F000 _).trans (by simp only [leadingNibble_layoutXYN]; decide)

theorem skp (x : Reg) : Statement (.skp x) := by
  simp only [Statement, OpcodeRow.accepts, Instr.row, encode, beq_iff_eq]
  exact (and_F0FF _).trans (by simp only [leadingNibble_layoutXNN, fieldNN_layoutXNN]; decide)

theorem sknp (x : Reg) : Statement (.sknp x) := by
  simp only [Statement, OpcodeRow.accepts, Instr.row, encode, beq_iff_eq]
  exact (and_F0FF _).trans (by simp only [leadingNibble_layoutXNN, fieldNN_layoutXNN]; decide)

theorem ldVxDT (x : Reg) : Statement (.ldVxDT x) := by
  simp only [Statement, OpcodeRow.accepts, Instr.row, encode, beq_iff_eq]
  exact (and_F0FF _).trans (by simp only [leadingNibble_layoutXNN, fieldNN_layoutXNN]; decide)

theorem ldVxK (x : Reg) : Statement (.ldVxK x) := by
  simp only [Statement, OpcodeRow.accepts, Instr.row, encode, beq_iff_eq]
  exact (and_F0FF _).trans (by simp only [leadingNibble_layoutXNN, fieldNN_layoutXNN]; decide)

theorem ldDTVx (x : Reg) : Statement (.ldDTVx x) := by
  simp only [Statement, OpcodeRow.accepts, Instr.row, encode, beq_iff_eq]
  exact (and_F0FF _).trans (by simp only [leadingNibble_layoutXNN, fieldNN_layoutXNN]; decide)

theorem ldSTVx (x : Reg) : Statement (.ldSTVx x) := by
  simp only [Statement, OpcodeRow.accepts, Instr.row, encode, beq_iff_eq]
  exact (and_F0FF _).trans (by simp only [leadingNibble_layoutXNN, fieldNN_layoutXNN]; decide)

theorem addI (x : Reg) : Statement (.addI x) := by
  simp only [Statement, OpcodeRow.accepts, Instr.row, encode, beq_iff_eq]
  exact (and_F0FF _).trans (by simp only [leadingNibble_layoutXNN, fieldNN_layoutXNN]; decide)

theorem ldF (x : Reg) : Statement (.ldF x) := by
  simp only [Statement, OpcodeRow.accepts, Instr.row, encode, beq_iff_eq]
  exact (and_F0FF _).trans (by simp only [leadingNibble_layoutXNN, fieldNN_layoutXNN]; decide)

theorem ldB (x : Reg) : Statement (.ldB x) := by
  simp only [Statement, OpcodeRow.accepts, Instr.row, encode, beq_iff_eq]
  exact (and_F0FF _).trans (by simp only [leadingNibble_layoutXNN, fieldNN_layoutXNN]; decide)

theorem stRegs (x : Reg) : Statement (.stRegs x) := by
  simp only [Statement, OpcodeRow.accepts, Instr.row, encode, beq_iff_eq]
  exact (and_F0FF _).trans (by simp only [leadingNibble_layoutXNN, fieldNN_layoutXNN]; decide)

theorem ldRegs (x : Reg) : Statement (.ldRegs x) := by
  simp only [Statement, OpcodeRow.accepts, Instr.row, encode, beq_iff_eq]
  exact (and_F0FF _).trans (by simp only [leadingNibble_layoutXNN, fieldNN_layoutXNN]; decide)

end Sys2Proof.Laws.TableRow
end

