-- ==== Sys2Proof/Tests/Slice0.lean ====
section
/-! SUPPORT. The tests: words written out bit by bit from the patterns of 30_encoding.md R74, one-step vectors of
95_test_vectors.md (named V<n> or W<n>), the WellFormed smoke test, and for every obligation with hypotheses a witness that
meets them, at the edges of their ranges. -/

namespace Sys2Proof.Tests
open Sys2Proof Sys2Proof.Machine

/-! ### Decoding: the word of each row, its nibbles from the pattern in 30_encoding.md R74 -/

theorem test_decode_cls : decodeWord 0b0000000011100000 = .ok .cls := by decide
theorem test_decode_ret : decodeWord 0b0000000011101110 = .ok .ret := by decide
theorem test_decode_jp : decodeWord 0b0001001000110100 = .ok (.jp 0x234) := by decide
theorem test_decode_call : decodeWord 0b0010001000010000 = .ok (.call 0x210) := by decide
theorem test_decode_seImm : decodeWord 0b0011000101000010 = .ok (.seImm 1 0x42) := by decide
theorem test_decode_sneImm : decodeWord 0b0100001000000101 = .ok (.sneImm 2 0x05) := by decide
theorem test_decode_seReg : decodeWord 0b0101001101000000 = .ok (.seReg 3 4) := by decide
theorem test_decode_ldImm : decodeWord 0b0110101001000010 = .ok (.ldImm 10 0x42) := by decide
theorem test_decode_addImm : decodeWord 0b0111111100000001 = .ok (.addImm 15 0x01) := by decide
theorem test_decode_ldReg : decodeWord 0b1000000100100000 = .ok (.ldReg 1 2) := by decide
theorem test_decode_orReg : decodeWord 0b1000000000010001 = .ok (.orReg 0 1) := by decide
theorem test_decode_andReg : decodeWord 0b1000001111000010 = .ok (.andReg 3 12) := by decide
theorem test_decode_xorReg : decodeWord 0b1000010001010011 = .ok (.xorReg 4 5) := by decide
theorem test_decode_addReg : decodeWord 0b1000000011110100 = .ok (.addReg 0 15) := by decide
theorem test_decode_sub : decodeWord 0b1000000000010101 = .ok (.sub 0 1) := by decide
theorem test_decode_shr : decodeWord 0b1000001101110110 = .ok (.shr 3 7) := by decide
theorem test_decode_subn : decodeWord 0b1000000000010111 = .ok (.subn 0 1) := by decide
theorem test_decode_shl : decodeWord 0b1000001100001110 = .ok (.shl 3 0) := by decide
theorem test_decode_sneReg : decodeWord 0b1001000000010000 = .ok (.sneReg 0 1) := by decide
theorem test_decode_ldI : decodeWord 0b1010001100000000 = .ok (.ldI 0x300) := by decide
theorem test_decode_jpV0 : decodeWord 0b1011010100000000 = .ok (.jpV0 0x500) := by decide
theorem test_decode_rnd : decodeWord 0b1100000000001111 = .ok (.rnd 0 0x0F) := by decide
theorem test_decode_drw : decodeWord 0b1101001000110010 = .ok (.drw 2 3 2) := by decide
theorem test_decode_skp : decodeWord 0b1110010110011110 = .ok (.skp 5) := by decide
theorem test_decode_sknp : decodeWord 0b1110010110100001 = .ok (.sknp 5) := by decide
theorem test_decode_ldVxDT : decodeWord 0b1111001100000111 = .ok (.ldVxDT 3) := by decide
theorem test_decode_ldVxK : decodeWord 0b1111000000001010 = .ok (.ldVxK 0) := by decide
theorem test_decode_ldDTVx : decodeWord 0b1111101000010101 = .ok (.ldDTVx 10) := by decide
theorem test_decode_ldSTVx : decodeWord 0b1111000100011000 = .ok (.ldSTVx 1) := by decide
theorem test_decode_addI : decodeWord 0b1111001000011110 = .ok (.addI 2) := by decide
theorem test_decode_ldF : decodeWord 0b1111000000101001 = .ok (.ldF 0) := by decide
theorem test_decode_ldB : decodeWord 0b1111000000110011 = .ok (.ldB 0) := by decide
theorem test_decode_stRegs : decodeWord 0b1111000101010101 = .ok (.stRegs 1) := by decide
theorem test_decode_ldRegs : decodeWord 0b1111001001100101 = .ok (.ldRegs 2) := by decide

/-- 30_encoding.md R75: one unknown word of each of its lines, beside a neighbour that is known. -/
theorem test_decode_unknown :
    ([0x0000, 0x00E1, 0x0230, 0x5121, 0x8128, 0x812F, 0x9011, 0xE19F, 0xE09F, 0xF100, 0xF175].map fun w : Word =>
      decide (decodeWord w = .error (.unknownOpcode w))) = List.replicate 11 true := by decide

/-- The high byte lies at the lower address (20_memory.md R52), and what follows the two bytes is left over. -/
theorem test_decode_bytes : decode [0xA3, 0x00, 0x12] = .ok (.ldI 0x300, [0x12]) := by decide

theorem test_decode_truncated : decode [0xA3] = .error .truncated := by decide

theorem test_decodeTableWord : decodeTableWord 16 0x60FE = some (.ldImm 0 0xFE) := by decide

/-! ### WellFormed -/

/-- 60_exceptions.md R240: 3584 bytes fit and 3585 do not. -/
theorem test_image_fits : imageFits (List.replicate 3584 0) = true := by
  rw [imageFits, List.length_replicate]; decide
theorem test_image_too_long : imageFits (List.replicate 3585 0) = false := by
  rw [imageFits, List.length_replicate]; decide

/-! ### One step of each instruction (95_test_vectors.md) -/

/-- The state a result gives, if it gives one. -/
def nextOf : Result → Option State
  | .next t => some t
  | .fault _ => none
  | .refused _ => none

/-- The state after one step of the word `w`, fetched at `pc` of `s`. -/
def after (s : State) (w : Nat) : Option State := nextOf (step (s.withFetchWord 16 w))

/-- Reset with some registers set. -/
def withRegs (rs : List (Reg × Byte)) : State := rs.foldl (fun s r => s.setReg r.1 r.2) State.reset

/-- Reset with some bytes of memory set from `a` on, `I` pointing at them. -/
def withBytes (a : Nat) (bytes : List Byte) (rs : List (Reg × Byte)) : State :=
  ((withRegs rs).setMem (Memory.storeAll [] a bytes)).setI (BitVec.ofNat 16 a)

/-- The set pixels of row `row`, their columns rising. -/
def setColumns (t : State) (row : Fin 32) : List Nat :=
  (List.range 64).filter fun c => t.fb.pixel row (Fin.ofNat 64 c)

theorem test_reset_step_is_unknown : -- V1, V105
    (nextOf (step State.reset)).map (fun t => (t.pc, t.report)) = some (0x202, some (.unknown 0x200 0x0000)) := by decide

theorem test_unknown_changes_pc_alone : -- V2
    after (State.reset.setPc 0x300) 0x5121 =
      some { ((State.reset.setPc 0x300).withFetchWord 16 0x5121) with
        pc := 0x302, report := some (.unknown 0x300 0x5121) } := by decide

theorem test_last_fetch : -- V6
    (after (State.reset.setPc 0xFFE) 0x6001).map (fun t => (t.reg 0, t.pc, t.report)) =
      some (0x01, 0x1000, some .executed) := by decide

theorem test_fetch_out_of_range : -- V7
    nextOf (step (State.reset.setPc 0x1000)) =
      some { State.reset with pc := 0x1000, mode := .halted .fetchOutOfRange,
                              report := some (.fault .fetchOutOfRange) } := by decide

theorem test_odd_pc : -- V9
    (after (State.reset.setPc 0x201) 0x6123).map (fun t => (t.reg 1, t.pc)) = some (0x23, 0x203) := by decide

theorem test_cls : -- V76
    (after (State.reset.setFb (Vector.replicate 32 (Vector.replicate 64 true))) 0x00E0).map (fun t => (t.fb, t.pc)) =
      some (Vector.replicate 32 (Vector.replicate 64 false), 0x202) := by decide

theorem test_ret : -- V14
    (after (((State.reset.setPc 0x212).setSp 1).setSlot 0 0x206) 0x00EE).map (fun t => (t.sp, t.pc, t.stack[0])) =
      some (0, 0x206, 0x206) := by decide

theorem test_ret_underflow : -- V15
    (after State.reset 0x00EE).map (fun t => (t.mode, t.pc, t.sp, t.report)) =
      some (.halted .stackUnderflow, 0x200, 0, some (.fault .stackUnderflow)) := by decide

theorem test_jp : -- V11
    (after State.reset 0x1234).map (fun t => t.pc) = some 0x234 := by decide

theorem test_jp_odd : -- V12
    (after State.reset 0x1201).map (fun t => t.pc) = some 0x201 := by decide

theorem test_call : -- V17
    (after (State.reset.setPc 0xFFE) 0x2300).map (fun t => (t.stack[0], t.sp, t.pc)) = some (0x1000, 1, 0x300) := by decide

theorem test_call_overflow : -- V16
    (after (State.reset.setSp 16) 0x2300).map (fun t => (t.mode, t.pc, t.sp)) =
      some (.halted .stackOverflow, 0x200, 16) := by decide

theorem test_seImm_taken : -- V18
    (after (State.reset.setPc 0x208) 0x3100).map (fun t => t.pc) = some 0x20C := by decide

theorem test_seImm_not_taken : -- V19
    (after ((withRegs [(1, 0x01)]).setPc 0x208) 0x3100).map (fun t => t.pc) = some 0x20A := by decide

theorem test_sneImm_not_taken : -- V20
    (after ((withRegs [(2, 0x05)]).setPc 0x300) 0x4205).map (fun t => t.pc) = some 0x302 := by decide

theorem test_sneImm_taken : -- V21
    (after ((withRegs [(2, 0x06)]).setPc 0x300) 0x4205).map (fun t => t.pc) = some 0x304 := by decide

theorem test_seReg : -- V22
    (after ((withRegs [(3, 0x7F), (4, 0x7F)]).setPc 0x210) 0x5340).map (fun t => t.pc) = some 0x214 := by decide

theorem test_sneReg : -- V24
    (after (withRegs [(0, 1), (1, 2)]) 0x9010).map (fun t => t.pc) = some 0x204 := by decide

theorem test_sneReg_same : -- V25
    (after (withRegs [(5, 9)]) 0x9550).map (fun t => t.pc) = some 0x202 := by decide

theorem test_jpV0 : -- V28
    (after (withRegs [(0, 0xFF)]) 0xBFFF).map (fun t => t.pc) = some 0x10FE := by decide

theorem test_jpV0_register : -- V29
    (after (withRegs [(0, 0x01), (5, 0x80)]) 0xB500).map (fun t => t.pc) = some 0x501 := by decide

theorem test_ldImm : -- V30
    (after State.reset 0x6A42).map (fun t => (t.reg 10, t.pc)) = some (0x42, 0x202) := by decide

theorem test_addImm_wraps : -- V31
    (after (withRegs [(1, 0xFE)]) 0x7103).map (fun t => (t.reg 1, t.reg VF)) = some (0x01, 0x00) := by decide

theorem test_addImm_VF : -- V33
    (after (withRegs [(15, 0x10)]) 0x7F01).map (fun t => t.reg VF) = some 0x11 := by decide

theorem test_ldReg : -- V34
    (after (withRegs [(2, 0x33)]) 0x8120).map (fun t => t.reg 1) = some 0x33 := by decide

theorem test_or : -- V35
    (after (withRegs [(0, 0xF0), (1, 0x0C), (15, 0x77)]) 0x8011).map (fun t => (t.reg 0, t.reg VF)) =
      some (0xFC, 0x77) := by decide

theorem test_and : -- V36
    (after (withRegs [(0, 0xF0), (1, 0x3C)]) 0x8012).map (fun t => t.reg 0) = some 0x30 := by decide

theorem test_xor : -- V37
    (after (withRegs [(0, 0xF0), (1, 0x3C)]) 0x8013).map (fun t => t.reg 0) = some 0xCC := by decide

theorem test_xor_self : -- V38
    (after (withRegs [(4, 0x5A)]) 0x8443).map (fun t => t.reg 4) = some 0x00 := by decide

theorem test_addReg_no_carry : -- V40
    (after (withRegs [(0, 0xFE), (1, 0x01), (15, 1)]) 0x8014).map (fun t => (t.reg 0, t.reg VF)) =
      some (0xFF, 0) := by decide

theorem test_addReg_VF_operand : -- V42
    (after (withRegs [(0, 0x10), (15, 0xF0)]) 0x80F4).map (fun t => (t.reg 0, t.reg VF)) = some (0x00, 1) := by decide

theorem test_sub_borrow : -- V44
    (after (withRegs [(0, 0x05), (1, 0x07), (15, 1)]) 0x8015).map (fun t => (t.reg 0, t.reg VF)) =
      some (0xFE, 0) := by decide

theorem test_sub_equal : -- V45
    (after (withRegs [(0, 0x07), (1, 0x07)]) 0x8015).map (fun t => (t.reg 0, t.reg VF)) = some (0x00, 1) := by decide

theorem test_subn_borrow : -- V47
    (after (withRegs [(0, 0x07), (1, 0x05), (15, 1)]) 0x8017).map (fun t => (t.reg 0, t.reg VF)) =
      some (0xFE, 0) := by decide

theorem test_subn_equal : -- V49
    (after (withRegs [(0, 0x09), (1, 0x09)]) 0x8017).map (fun t => (t.reg 0, t.reg VF)) = some (0x00, 1) := by decide

theorem test_shr : -- V51
    (after (withRegs [(3, 0x80), (15, 1)]) 0x8306).map (fun t => (t.reg 3, t.reg VF)) = some (0x40, 0) := by decide

theorem test_shr_reads_x : -- V10
    (after (withRegs [(0, 0x04), (1, 0xFF)]) 0x8016).map (fun t => (t.reg 0, t.reg VF)) = some (0x02, 0) := by decide

theorem test_shl : -- V52
    (after (withRegs [(3, 0x81)]) 0x830E).map (fun t => (t.reg 3, t.reg VF)) = some (0x02, 1) := by decide

theorem test_shl_low : -- V53
    (after (withRegs [(3, 0x7F), (15, 1)]) 0x830E).map (fun t => (t.reg 3, t.reg VF)) = some (0xFE, 0) := by decide

/-- V55: whichever byte the oracle draws, the mask applies to it; were it 0xA7, the result would be 0x07. -/
theorem test_rnd_mask (h : Config.randomByte 0 = 0xA7) :
    ∃ t, exec (.rnd 0 0x0F) State.reset = .next t ∧ t.reg 0 = 0x07 := by
  refine ⟨_, rfl, ?_⟩
  show Config.randomByte 0 &&& 0x0F = 0x07
  rw [h]
  decide

/-- V56: an empty mask gives 0 whatever was drawn. -/
theorem test_rnd_zero : ∃ t, exec (.rnd 1 0) State.reset = .next t ∧ t.reg 1 = 0 :=
  ⟨_, rfl, BitVec.and_zero⟩

theorem test_ldI : -- V58
    (after State.reset 0xA300).map (fun t => t.I) = some 0x300 := by decide

theorem test_addI_beyond_memory : -- V59
    (after ((withRegs [(2, 0x01), (15, 0x55)]).setI 0x0FFF) 0xF21E).map (fun t => (t.I, t.reg VF)) =
      some (0x1000, 0x55) := by decide

theorem test_addI_wraps : -- V60
    (after ((withRegs [(2, 0x02)]).setI 0xFFFF) 0xF21E).map (fun t => t.I) = some 0x0001 := by decide

theorem test_ldF : -- V62
    (after (withRegs [(0, 0x1A)]) 0xF029).map (fun t => t.I) = some 0x032 := by decide

theorem test_ldF_last : -- V63
    (after (withRegs [(0, 0x0F)]) 0xF029).map (fun t => t.I) = some 0x04B := by decide

theorem test_ldB_top : -- V67
    (after ((withRegs [(0, 0xFF)]).setI 0xFFD) 0xF033).map (fun t =>
      (t.mem.read 0xFFD, t.mem.read 0xFFE, t.mem.read 0xFFF, t.I)) = some (2, 5, 5, 0xFFD) := by decide

theorem test_ldB_out_of_range : -- V68
    (after (State.reset.setI 0xFFE) 0xF033).map (fun t => (t.mode, t.pc, t.mem.read 0xFFE)) =
      some (.halted .memoryOutOfRange, 0x200, 0) := by decide

theorem test_stRegs : -- V69
    (after ((withRegs [(0, 0xC3), (1, 0x81), (2, 0x99)]).setI 0x400) 0xF155).map (fun t =>
      (t.mem.read 0x400, t.mem.read 0x401, t.mem.read 0x402, t.I)) = some (0xC3, 0x81, 0, 0x400) := by decide

theorem test_stRegs_out_of_range : -- V72
    (after ((withRegs [(0, 0xC3)]).setI 0xFF1) 0xFF55).map (fun t => (t.mode, t.mem.read 0xFF1)) =
      some (.halted .memoryOutOfRange, 0) := by decide

theorem test_ldRegs : -- V73
    (after (withBytes 0x300 [2, 5, 4, 7] []) 0xF265).map (fun t => (t.reg 0, t.reg 1, t.reg 2, t.reg 3, t.I)) =
      some (2, 5, 4, 0, 0x300) := by decide

theorem test_ldRegs_out_of_range : -- V75
    (after ((withRegs [(0, 0x12)]).setI 0x1000) 0xF065).map (fun t => (t.mode, t.reg 0)) =
      some (.halted .memoryOutOfRange, 0x12) := by decide

/-- V77, V78: the wrapped sprite, and drawn again. -/
theorem test_drw_wraps :
    (after (withBytes 0x400 [0xC3, 0x81] [(2, 62), (3, 31)]) 0xD232).map (fun t =>
      (setColumns t 31, setColumns t 0, t.reg VF)) = some ([4, 5, 62, 63], [5, 62], 0) := by decide

/-- V81, V85: a collision; and the column is the old `VF`. -/
theorem test_drw_collides :
    (after ((withBytes 0x400 [0xC0] [(15, 10)]).setFb (Framebuffer.blank.setPixel 0 10 true)) 0xDF11).map (fun t =>
      (setColumns t 0, t.reg VF)) = some ([11], 1) := by decide

theorem test_skp : -- V86
    (after (((withRegs [(5, 7)]).setKeyFlag 7 true).setPc 0x220) 0xE59E).map (fun t => t.pc) = some 0x224 := by decide

theorem test_skp_bad_key : -- V90
    (after ((withRegs [(5, 0x10)]).setPc 0x220) 0xE59E).map (fun t => (t.mode, t.pc)) =
      some (.halted .keyIndexOutOfRange, 0x220) := by decide

theorem test_sknp_pressed : -- V88
    (after (((withRegs [(5, 7)]).setKeyFlag 7 true).setPc 0x220) 0xE5A1).map (fun t => t.pc) = some 0x222 := by decide

theorem test_sknp_released : -- V89
    (after ((withRegs [(5, 7)]).setPc 0x220) 0xE5A1).map (fun t => t.pc) = some 0x224 := by decide

theorem test_ldVxDT : -- V91
    (after (State.reset.setDT 0x2A) 0xF307).map (fun t => (t.reg 3, t.DT)) = some (0x2A, 0x2A) := by decide

theorem test_ldDTVx : -- V92
    (after (withRegs [(10, 3)]) 0xFA15).map (fun t => (t.DT, t.ST)) = some (3, 0) := by decide

theorem test_ldSTVx : -- V93
    (after (withRegs [(1, 0x10)]) 0xF118).map (fun t => (t.ST, soundActive t, t.DT)) = some (0x10, true, 0) := by decide

theorem test_ldVxK : -- V97, W8
    (after State.reset 0xF00A).map (fun t => (t.mode, t.pc, t.report)) =
      some (.awaitingKey 0, 0x200, some .waiting) := by decide

/-! ### The host's transactions (95_test_vectors.md 2.6, 2.7) -/

/-- A core that waits for a key for `V[x]`. -/
def waiting (x : Reg) : State := { State.reset with mode := .awaitingKey x, report := some .waiting }

theorem test_waiting_step : -- V98
    nextOf (step (waiting 0)) = some (waiting 0) := by decide

theorem test_held_key_is_no_press : -- V99
    setKey 3 true ((waiting 0).setKeyFlag 3 true) = (waiting 0).setKeyFlag 3 true := by decide

theorem test_release_then_press : -- V100
    (fun t : State => (t.key[3], t.reg 0, t.pc, t.mode)) (setKey 3 true (setKey 3 false ((waiting 0).setKeyFlag 3 true))) =
      (true, 3, 0x202, .running) := by decide

theorem test_key_into_VF : -- V101
    (fun t : State => (t.reg VF, t.pc, t.mode)) (setKey 0xC true ((waiting 15).setPc 0x300)) =
      (0x0C, 0x302, .running) := by decide

theorem test_key_while_running : -- V102
    setKey 4 true State.reset = State.reset.setKeyFlag 4 true := by decide

theorem test_tick_floor : -- V94, V95
    (tick (State.reset.setST 1)).ST = 0 ∧ tick State.reset = State.reset := by decide

theorem test_tick_while_halted : -- V96
    tick ((State.reset.setDT 5).setMode (.halted .stackOverflow)) =
      (State.reset.setDT 4).setMode (.halted .stackOverflow) := by decide

theorem test_reset_while_halted : -- V104
    nextOf (perform .reset (((withBytes 0x300 [9] [(3, 7)]).setDT 5).setMode (.halted .stackOverflow))) =
      some State.reset := by decide

theorem test_reset_font : -- V106
    (List.range 5).map (State.reset.mem.read) = [0xF0, 0x90, 0x90, 0x90, 0xF0] := by decide

theorem test_load : -- W7's image
    (nextOf (load [0x60, 0x05] State.reset)).map (fun t => (t.mem.read 0x1FF, t.mem.read 0x200, t.mem.read 0x201)) =
      some (0, 0x60, 0x05) := by decide

theorem test_fault_codes : -- 60_exceptions.md R221
    [Fault.fetchOutOfRange, .stackOverflow, .stackUnderflow, .memoryOutOfRange, .keyIndexOutOfRange].map Fault.code =
      [1, 2, 3, 4, 5] := by decide

/-! ### Witnesses: for each obligation with hypotheses, states and operands that meet them, at the edges -/

theorem test_witness_DecodeOfEncodeGivesTheInstruction : (Instr.drw 15 15 15).wellFormed = true := by decide

theorem test_witness_EncodeOfDecodeGivesTheWord :
    decodeWord 0x8376 = .ok (.shr 3 7) ∧ decodeWord 0xFF65 = .ok (.ldRegs 15) := by decide

theorem test_witness_WordDecodesToTheRowItMatches :
    (Instr.shr 3 0).row.accepts 0x8376 = true ∧ decodeWord 0x8376 = .ok (.shr 3 7) ∧
    (Instr.shr 3 7).row.accepts 0x8376 = true := by decide

theorem test_witness_StepRunsTheDecodedInstruction :
    ∃ t, (let s := ((State.reset.setPc 0xFFE).withFetchWord 16 0x6001);
      s.mode = .running ∧ s.pc.toNat ≤ 0xFFE ∧
      decode [s.mem.read s.pc.toNat, s.mem.read (s.pc.toNat + 1)] = .ok (.ldImm 0 1, []) ∧
      (Instr.ldImm 0 1).wellFormed = true ∧ exec (.ldImm 0 1) s = .next t ∧ t.mode = .running) :=
  ⟨_, by decide, by decide, by decide, by decide, rfl, by decide⟩

theorem test_witness_StepRunsTheDecodedInstruction_waiting :
    ∃ t, (let s := State.reset.withFetchWord 16 0xF30A;
      s.mode = .running ∧ s.pc.toNat ≤ 0xFFE ∧
      decode [s.mem.read s.pc.toNat, s.mem.read (s.pc.toNat + 1)] = .ok (.ldVxK 3, []) ∧
      (Instr.ldVxK 3).wellFormed = true ∧ exec (.ldVxK 3) s = .next t ∧ t.mode = .awaitingKey 3) :=
  ⟨_, by decide, by decide, by decide, by decide, rfl, by decide⟩

theorem test_witness_StepRunsTheDecodedInstruction_halted :
    ∃ t, (let s := State.reset.withFetchWord 16 0x00EE;
      s.mode = .running ∧ s.pc.toNat ≤ 0xFFE ∧
      decode [s.mem.read s.pc.toNat, s.mem.read (s.pc.toNat + 1)] = .ok (.ret, []) ∧
      Instr.ret.wellFormed = true ∧ exec .ret s = .next t ∧ t.mode = .halted .stackUnderflow) :=
  ⟨_, by decide, by decide, by decide, by decide, rfl, by decide⟩

theorem test_witness_StepReportsAndSkipsUnknownWords :
    (let s := State.reset.setPc 0xFFE;
      s.mode = .running ∧ s.pc.toNat ≤ 0xFFE ∧ (0x0000 : Word) = s.mem.read s.pc.toNat ++ s.mem.read (s.pc.toNat + 1) ∧
      decodeWord 0x0000 = .error (.unknownOpcode 0x0000)) := by decide

theorem test_witness_StepBeyondTheFetchLimitHalts :
    (State.reset.setPc 0xFFF).mode = .running ∧ 0xFFE < (State.reset.setPc 0xFFF).pc.toNat := by decide

theorem test_witness_StepWhileAwaitingChangesNothing : (waiting 15).mode = .awaitingKey 15 := by decide

/-- A core that halted at its first step with an empty stack. -/
def halted : State :=
  { State.reset with mode := .halted .stackUnderflow, report := some (.fault .stackUnderflow), DT := 2 }

theorem test_witness_StepWhileHaltedChangesNothing :
    halted.mode = .halted .stackUnderflow ∧ halted.report = some (.fault .stackUnderflow) := by decide

/-- Every line of R221's table, at both sides of its edge. -/
theorem test_witness_FatalConditionsAreExactAndPrecise :
    fatalOf .ret State.reset = some .stackUnderflow ∧ fatalOf .ret (State.reset.setSp 1) = none ∧
    fatalOf (.call 0x300) (State.reset.setSp 16) = some .stackOverflow ∧
    fatalOf (.call 0x300) (State.reset.setSp 15) = none ∧
    fatalOf (.drw 0 0 2) (State.reset.setI 0xFFF) = some .memoryOutOfRange ∧
    fatalOf (.drw 0 0 1) (State.reset.setI 0xFFF) = none ∧ fatalOf (.drw 0 0 0) (State.reset.setI 0xFFFF) = none ∧
    fatalOf (.ldB 0) (State.reset.setI 0xFFE) = some .memoryOutOfRange ∧
    fatalOf (.ldB 0) (State.reset.setI 0xFFD) = none ∧
    fatalOf (.stRegs 15) (State.reset.setI 0xFF1) = some .memoryOutOfRange ∧
    fatalOf (.stRegs 15) (State.reset.setI 0xFF0) = none ∧
    fatalOf (.ldRegs 0) (State.reset.setI 0x1000) = some .memoryOutOfRange ∧
    fatalOf (.ldRegs 0) (State.reset.setI 0xFFF) = none ∧
    fatalOf (.skp 5) (withRegs [(5, 16)]) = some .keyIndexOutOfRange ∧ fatalOf (.skp 5) (withRegs [(5, 15)]) = none ∧
    fatalOf (.sknp 5) (withRegs [(5, 16)]) = some .keyIndexOutOfRange ∧
    fatalOf (.sknp 5) (withRegs [(5, 15)]) = none := by decide

theorem test_witness_EveryInstructionCompletesAtItsNextPc :
    fatalOf .ret (State.reset.setSp 16) = none ∧ fatalOf (.ldVxK 3) State.reset = none ∧
    fatalOf (.sknp 5) (withRegs [(5, 15)]) = none := by decide

theorem test_witness_OnlyFatalConditionsHaltTheCore :
    (∃ t, (State.reset.setPc 0xFFF).Safe ∧ step (State.reset.setPc 0xFFF) = .next t ∧
      t.mode = .halted .fetchOutOfRange) ∧
    (∃ t, (State.reset.withFetchWord 16 0x00EE).Safe ∧ step (State.reset.withFetchWord 16 0x00EE) = .next t ∧
      t.mode = .halted .stackUnderflow) :=
  ⟨⟨_, nofun, rfl, by decide⟩, ⟨_, nofun, rfl, by decide⟩⟩

theorem test_witness_OnlyResetLeavesTheHalt :
    ∃ t, halted.mode = .halted .stackUnderflow ∧ halted.report = some (.fault .stackUnderflow) ∧
      Transaction.reset ∉ [Transaction.tick, .setKey 3 true, .step] ∧
      performAll [.tick, .setKey 3 true, .step] halted = .next t ∧ t.DT = 1 :=
  ⟨_, by decide, by decide, by decide, rfl, by decide⟩

/-- A state the invariant holds of, away from reset: memory written, `pc` and a return address at their highest. -/
def farState : State :=
  { (withBytes 0xFFE [0x60, 0x01] []) with pc := 0x10FE, stack := Vector.replicate 16 0x1000, sp := 16 }

theorem test_witness_inv : farState.Inv :=
  ⟨by decide, by decide, by decide, nofun, fun _ => ⟨nofun, nofun⟩⟩

theorem test_witness_inv_waiting : (waiting 15).Inv :=
  ⟨by decide, by decide, by decide, fun _ _ => ⟨by decide, rfl⟩, fun _ => ⟨nofun, nofun⟩⟩

theorem test_witness_inv_halted : halted.Inv :=
  ⟨by decide, by decide, by decide, nofun,
    fun k => by cases k <;> decide⟩

theorem test_witness_StepKeepsTheInvariant : farState.Inv ∧ ∃ t, step farState = .next t :=
  ⟨test_witness_inv, _, rfl⟩

theorem test_witness_InvariantHoldsForEveryInterleaving :
    ((waiting 15).Inv ∧ ∃ t, performAll [.step, .setKey 12 true, .step] (waiting 15) = .next t ∧ t.reg VF = 12) ∧
    (∃ t, performAll [.load [0x22, 0x00], .step, .tick] State.reset = .next t ∧ t.stack[0] = 0x202) :=
  ⟨⟨test_witness_inv_waiting, _, rfl, by decide⟩, ⟨_, rfl, by decide⟩⟩

theorem test_witness_EvenTargetsKeepPcEven :
    State.reset.pc.toNat % 2 = 0 ∧ (∀ j : Fin 16, (State.reset.stack[j]).toNat % 2 = 0) ∧
    (∀ nnn, Instr.call 0xFFE = .jp nnn ∨ Instr.call 0xFFE = .call nnn → nnn.toNat % 2 = 0) ∧
    (∀ nnn, Instr.call 0xFFE = .jpV0 nnn → (nnn.toNat + (State.reset.reg 0).toNat) % 2 = 0) ∧
    (∃ t, exec (.call 0xFFE) State.reset = .next t) :=
  ⟨by decide, by decide, fun _ h => h.elim nofun fun h => by cases h; decide, nofun, _, rfl⟩

theorem test_witness_OnlyStoresWriteMemory :
    (∃ t, exec (.ldB 0) ((withRegs [(0, 0xFF)]).setI 0xFFD) = .next t ∧
      t.mem.read 0xFFF ≠ ((withRegs [(0, 0xFF)]).setI 0xFFD).mem.read 0xFFF) ∧
    (∃ t, exec (.stRegs 0) ((withRegs [(0, 1)]).setI 0xFFF) = .next t ∧
      t.mem.read 0xFFF ≠ ((withRegs [(0, 1)]).setI 0xFFF).mem.read 0xFFF) :=
  ⟨⟨_, rfl, by decide⟩, ⟨_, rfl, by decide⟩⟩

theorem test_witness_OnlyCallAndReturnUseTheStack :
    (∃ t, exec (.ldI 0) (State.reset.setSp 1) = .next t ∧ ∀ nnn, Instr.ldI 0 ≠ .call nnn) ∧
    (∃ t, exec (.call 0x300) (State.reset.setSp 15) = .next t ∧ t.stack[15] = 0x202 ∧ t.sp = 16) :=
  ⟨⟨_, rfl, nofun⟩, ⟨_, rfl, by decide⟩⟩

theorem test_witness_TimersChangeOnlyByTheirWriters :
    (∃ t, exec (.ldDTVx 3) (withRegs [(3, 7)]) = .next t ∧ t.DT = 7) ∧
    (∃ t, perform .tick (State.reset.setST 1) = .next t ∧ (t.DT ≠ (State.reset.setST 1).DT ∨
      t.ST ≠ (State.reset.setST 1).ST)) :=
  ⟨⟨_, rfl, by decide⟩, ⟨_, rfl, by decide⟩⟩

theorem test_witness_FramebufferAndKeyWriters :
    (∃ t, exec .cls (State.reset.setFb (Framebuffer.blank.setPixel 31 63 true)) = .next t ∧
      t.fb ≠ (State.reset.setFb (Framebuffer.blank.setPixel 31 63 true)).fb) ∧
    (∃ t, step State.reset = .next t) :=
  ⟨⟨_, rfl, by decide⟩, ⟨_, rfl⟩⟩

theorem test_witness_OnlyIndexInstructionsWriteI :
    ∃ t, exec (.addI 2) ((withRegs [(2, 2)]).setI 0xFFFF) = .next t ∧ t.I ≠ ((withRegs [(2, 2)]).setI 0xFFFF).I :=
  ⟨_, rfl, by decide⟩

theorem test_witness_VFChangesOnlyAsFlagOrDestination :
    (∃ t, exec (.addReg 0 1) (withRegs [(0, 0xFF), (1, 1)]) = .next t ∧
      t.reg VF ≠ (withRegs [(0, 0xFF), (1, 1)]).reg VF) ∧
    (∃ t, exec (.addImm 15 1) State.reset = .next t ∧ t.reg VF ≠ State.reset.reg VF) :=
  ⟨⟨_, rfl, by decide⟩, ⟨_, rfl, by decide⟩⟩

theorem test_witness_ReportNeverInfluencesExecution :
    ∃ t, exec (.call 0x300) { State.reset with report := some .executed } = .next t := ⟨_, rfl⟩

theorem test_witness_ReturnPopsOrUnderflows :
    (State.reset.setSp 16).sp.val = (15 : Fin 16).val + 1 ∧ (State.reset.setSp 1).sp.val = (0 : Fin 16).val + 1 ∧
    State.reset.sp.val = 0 := by decide

theorem test_witness_CallPushesOrOverflows :
    State.reset.sp.val = (0 : Fin 16).val ∧ (State.reset.setSp 15).sp.val = (15 : Fin 16).val ∧
    (State.reset.setSp 16).sp.val = 16 := by decide

theorem test_witness_CallThenReturnComesBack : (State.reset.setSp 15).sp.val < 16 := by decide

/-- For AddRegistersReportsCarry, SubtractionsReportNotBorrow and ShiftsReportTheBitShiftedOut: `x = 14` with `y = 15`. -/
theorem test_witness_flag_writers : (14 : Reg) ≠ VF := by decide

theorem test_witness_FlagWritersRunWithVFAsDestination :
    Instr.shl VF 15 = .addReg VF 15 ∨ Instr.shl VF 15 = .sub VF 15 ∨ Instr.shl VF 15 = .shr VF 15 ∨
    Instr.shl VF 15 = .subn VF 15 ∨ Instr.shl VF 15 = .shl VF 15 := by decide

theorem test_witness_RandomByteStaysUnderItsMask :
    (0x0F : Byte).getLsbD 4 = false ∧ Config.randomByte 0 = Config.randomByte 0 := ⟨by decide, rfl⟩

theorem test_witness_DecimalDigitsAreStored :
    (State.reset.setI 0xFFD).I.toNat + 2 ≤ 0xFFF ∧ 0xFFF < (State.reset.setI 0xFFE).I.toNat + 2 := by decide

/-- For RegistersAreStored and RegistersAreLoaded. -/
theorem test_witness_register_transfers :
    (State.reset.setI 0xFF0).I.toNat + (15 : Reg).val ≤ 0xFFF ∧ 0xFFF < (State.reset.setI 0xFF1).I.toNat + (15 : Reg).val ∧
    (State.reset.setI 0xFFF).I.toNat + (0 : Reg).val ≤ 0xFFF ∧
    0xFFF < (State.reset.setI 0x1000).I.toNat + (0 : Reg).val := by decide

theorem test_witness_StoredRegistersLoadBack :
    ∃ u, ((withRegs [(1, 9)]).setI 0xFFE).I.toNat + (1 : Reg).val ≤ 0xFFF ∧
      exec (.stRegs 1) ((withRegs [(1, 9)]).setI 0xFFE) = .next u := ⟨_, by decide, rfl⟩

/-- FX55 stores the word 0x6105 right behind itself. -/
theorem test_witness_NextStepFetchesStoredBytes :
    ∃ t u, (let s := (withRegs [(0, 0x61), (1, 0x05)]).setI 0x202;
      s.mode = .running ∧ (1 : Reg).val = (0 : Reg).val + 1 ∧ (1 : Reg).val ≤ (1 : Reg).val ∧
      s.pc.toNat + 2 = s.I.toNat + (0 : Reg).val ∧ s.I.toNat + (1 : Reg).val ≤ 0xFFF ∧
      exec (.stRegs 1) s = .next t ∧ decodeWord (s.reg 0 ++ s.reg 1) = .ok (.ldImm 1 5) ∧
      exec (.ldImm 1 5) t = .next u) :=
  ⟨_, _, by decide, by decide, by decide, by decide, by decide, rfl, by decide, rfl⟩

/-- A one-row sprite of two pixels, its corner at the last pixel of the screen, so that it wraps; that pixel is set. -/
def cornerState : State :=
  (withBytes 0xFFF [0xC0] [(0, 63), (1, 31)]).setFb (Framebuffer.blank.setPixel 31 63 true)

theorem test_witness_DrawFlipsExactlyTheSpritePixels :
    ((0 : Fin 16).val = 0) ∧ cornerState.I.toNat + ((1 : Fin 16).val - 1) ≤ 0xFFF ∧
    (LandsOn cornerState 0 1 1 31 63 ∧ cornerState.fb.pixel 31 63 = true) ∧ LandsOn cornerState 0 1 1 31 0 ∧
    ¬ LandsOn cornerState 0 1 1 31 1 := by
  refine ⟨rfl, by decide, ⟨⟨0, 0, by decide, by decide, by decide, by decide, by decide⟩, by decide⟩,
    ⟨0, 1, by decide, by decide, by decide, by decide, by decide⟩, ?_⟩
  rintro ⟨r, c, hr, hc, hb, -, hcol⟩
  have h2 : c = 2 := by
    have : (cornerState.reg 0).toNat = 63 := by decide
    rw [this] at hcol
    simp at hcol
    omega
  subst h2
  obtain rfl : r = 0 := by simpa using hr
  revert hb
  decide

/-- The last two clauses of DrawFlipsExactlyTheSpritePixels: a screen without a set pixel has no collision. -/
theorem test_witness_DrawFlipsExactlyTheSpritePixels_clear :
    ¬ ∃ row col, LandsOn (cornerState.setFb Framebuffer.blank) 0 1 1 row col ∧
      (cornerState.setFb Framebuffer.blank).fb.pixel row col = true := by
  rintro ⟨row, col, -, h⟩
  simp [State.setFb, Framebuffer.blank, Framebuffer.pixel] at h

theorem test_witness_DrawingTwiceRestoresTheFramebuffer :
    (0 : Reg) ≠ VF ∧ (1 : Reg) ≠ VF ∧ fatalOf (.drw 0 1 1) cornerState = none ∧
    ∃ u t, exec (.drw 0 1 1) cornerState = .next u ∧ exec (.drw 0 1 1) u = .next t ∧ t.reg VF = 1 :=
  ⟨by decide, by decide, by decide, _, _, rfl, rfl, by decide⟩

theorem test_witness_KeySkipsTestTheKey :
    ((withRegs [(5, 15)]).reg 5).toNat = (15 : Key).val ∧ 15 < ((withRegs [(5, 16)]).reg 5).toNat := by decide

theorem test_witness_KeyWaitEndsOnlyByNewPressOrReset :
    ∃ t, (waiting 15).mode = .awaitingKey 15 ∧ perform (.setKey 12 true) (waiting 15) = .next t ∧ t.mode = .running :=
  ⟨_, by decide, rfl, by decide⟩

theorem test_witness_KeyReportCompletesTheWaitOrSetsOneFlag :
    ((waiting 15).mode = .awaitingKey 15 ∧ (waiting 15).key[(3 : Key)] = false) ∧
    (∀ x, State.reset.mode ≠ .awaitingKey x) ∧ ((waiting 0).setKeyFlag 3 true).key[(3 : Key)] = true :=
  ⟨by decide, nofun, by decide⟩

theorem test_witness_LoadCopiesTheImage :
    State.reset.report = none ∧ (List.replicate 3584 (0x12 : Byte)).length ≤ 3584 ∧
    3584 < (List.replicate 3585 (0x12 : Byte)).length ∧ halted.report ≠ none :=
  ⟨rfl, by rw [List.length_replicate], by rw [List.length_replicate]; decide, by decide⟩

end Sys2Proof.Tests
end

section
/-! PROOFS. The state (10_state.md): the frame of every instruction, where `pc` goes, the inversions of `step`, `load` and
`setKey`, the invariant, and from them the statements about who writes which component. -/

namespace Sys2Proof.Machine

/-! ### Frames: what each update of a state leaves unchanged (10_state.md R22 to R32) -/

section Frame

variable {c : Changes} {s t : State}

theorem Frame.reg_eq (h : Frame c s t) {k : Reg} (hk : k ∉ c.regs) : t.reg k = s.reg k := by
  obtain ⟨hreg, -⟩ := h
  exact hreg k hk

theorem Frame.I_eq (h : Frame c s t) (hc : c.index = false) : t.I = s.I := by
  obtain ⟨-, hI, -⟩ := h
  exact hI hc

theorem Frame.stack_eq (h : Frame c s t) (hc : c.stack = false) : t.stack = s.stack ∧ t.sp = s.sp := by
  obtain ⟨-, -, hstack, -⟩ := h
  exact hstack hc

theorem Frame.DT_eq (h : Frame c s t) (hc : c.delay = false) : t.DT = s.DT := by
  obtain ⟨-, -, -, hDT, -⟩ := h
  exact hDT hc

theorem Frame.ST_eq (h : Frame c s t) (hc : c.sound = false) : t.ST = s.ST := by
  obtain ⟨-, -, -, -, hST, -⟩ := h
  exact hST hc

theorem Frame.fb_eq (h : Frame c s t) (hc : c.frame = false) : t.fb = s.fb := by
  obtain ⟨-, -, -, -, -, hfb, -⟩ := h
  exact hfb hc

theorem Frame.mode_eq (h : Frame c s t) (hc : c.mode = false) : t.mode = s.mode := by
  obtain ⟨-, -, -, -, -, -, hmode, -⟩ := h
  exact hmode hc

theorem Frame.key_eq (h : Frame c s t) : t.key = s.key := by
  obtain ⟨-, -, -, -, -, -, -, -, hkey, -⟩ := h
  exact hkey

theorem Frame.refl (c : Changes) (s : State) : Frame c s s := by simp [Frame]

/-- `pc` is outside every frame, so setting it breaks none. -/
theorem Frame.setPc (h : Frame c s t) (v : Word) : Frame c s (t.setPc v) := h

theorem Frame.advance (h : Frame c s t) : Frame c s t.advance := h

theorem Frame.setReg (h : Frame c s t) {x : Reg} (hc : x ∈ c.regs) (v : Byte) : Frame c s (t.setReg x v) := by
  obtain ⟨hreg, hrest⟩ := h
  refine ⟨fun k hk => ?_, hrest⟩
  have hkx : k ≠ x := fun e => hk (e ▸ hc)
  rw [State.setReg_reg, if_neg hkx, hreg k hk]

theorem Frame.setRegs (h : Frame c s t) {V : Vector Byte 16} (hV : ∀ k : Reg, k ∉ c.regs → V[k] = t.reg k) :
    Frame c s (t.setRegs V) := by
  obtain ⟨hreg, hrest⟩ := h
  exact ⟨fun k hk => (hV k hk).trans (hreg k hk), hrest⟩

theorem Frame.setI (h : Frame c s t) (hc : c.index = true) (v : Word) : Frame c s (t.setI v) := by
  simpa [Frame, hc] using h

theorem Frame.setSlot (h : Frame c s t) (hc : c.stack = true) (j : Fin 16) (v : Word) :
    Frame c s (t.setSlot j v) := by
  simpa [Frame, hc] using h

theorem Frame.setSp (h : Frame c s t) (hc : c.stack = true) (v : Fin 17) : Frame c s (t.setSp v) := by
  simpa [Frame, hc] using h

theorem Frame.setDT (h : Frame c s t) (hc : c.delay = true) (v : Byte) : Frame c s (t.setDT v) := by
  simpa [Frame, hc] using h

theorem Frame.setST (h : Frame c s t) (hc : c.sound = true) (v : Byte) : Frame c s (t.setST v) := by
  simpa [Frame, hc] using h

theorem Frame.setFb (h : Frame c s t) (hc : c.frame = true) (fb : Framebuffer) : Frame c s (t.setFb fb) := by
  simpa [Frame, hc] using h

theorem Frame.setMode (h : Frame c s t) (hc : c.mode = true) (m : Mode) : Frame c s (t.setMode m) := by
  simpa [Frame, hc] using h

theorem Frame.nextDraw (h : Frame c s t) (hc : c.draws = true) : Frame c s t.nextDraw := by
  simpa [Frame, hc] using h

/-- A flag writer's two registers, and the free value it takes where they are one (42_alu.md R141). -/
theorem Frame.writeWithFlag (h : Frame c s t) {x : Reg} (hx : x ∈ c.regs) (hf : VF ∈ c.regs)
    (hd : x = VF → c.draws = true) (r : Byte) (b : Bool) : Frame c s (writeWithFlag t x r b) := by
  by_cases hxf : x = VF
  · subst hxf
    rw [writeWithFlag_VF]
    exact (h.setReg hx _).nextDraw (hd rfl)
  · rw [writeWithFlag_of_ne hxf]
    exact (h.setReg hx _).setReg hf _

/-- A run of stores inside the bytes the frame leaves out. -/
theorem Frame.of_storeAll (s : State) (a : Nat) (vs : List Byte) :
    Frame { stored := (a, vs.length) } s (s.setMem (s.mem.storeAll a vs)) := by
  simp only [Frame, State.setMem_mem]
  exact ⟨fun _ _ => rfl, fun _ => rfl, fun _ => ⟨rfl, rfl⟩, fun _ => rfl, fun _ => rfl, fun _ => rfl, fun _ => rfl,
    fun _ => rfl, rfl, rfl, fun b hb => Memory.read_storeAll_outside _ _ _ _ hb⟩

end Frame

/-- What each instruction may change when it raises no fatal condition: the writers of 10_state.md R22 to R34. -/
def changesOf (i : Instr) (s : State) : Changes :=
  match i with
  | .jp _ | .jpV0 _ | .seImm _ _ | .sneImm _ _ | .seReg _ _ | .sneReg _ _ | .skp _ | .sknp _ => {}
  | .ret | .call _ => { stack := true }
  | .ldImm x _ | .addImm x _ | .ldReg x _ | .orReg x _ | .andReg x _ | .xorReg x _ | .ldVxDT x => { regs := [x] }
  | .addReg x _ | .sub x _ | .shr x _ | .subn x _ | .shl x _ => { regs := [x, VF], draws := decide (x = VF) }
  | .rnd x _ => { regs := [x], draws := true }
  | .ldRegs x => { regs := (List.finRange 16).filter fun k => k.val ≤ x.val }
  | .ldI _ | .addI _ | .ldF _ => { index := true }
  | .cls => { frame := true }
  | .drw _ _ _ => { regs := [VF], frame := true }
  | .ldDTVx _ => { delay := true }
  | .ldSTVx _ => { sound := true }
  | .ldVxK _ => { mode := true }
  | .ldB _ => { stored := (s.dataBase, 3) }
  | .stRegs x => { stored := (s.dataBase, x.val + 1) }

section Effect

variable {i : Instr} {s t : State}

/-- An instruction that raises no fatal condition changes nothing outside `changesOf`. -/
theorem Effect.frame (h : Effect i s t) : Frame (changesOf i s) s t := by
  have hs := Frame.refl (changesOf i s) s
  cases i
  case jp nnn | jpV0 nnn | seImm x nn | sneImm x nn | seReg x y | sneReg x y =>
    obtain rfl := h
    exact hs.setPc _
  case skp x | sknp x =>
    obtain ⟨-, rfl⟩ := h
    exact hs.setPc _
  case ret =>
    obtain ⟨-, rfl⟩ := h
    exact (hs.setSp rfl _).setPc _
  case call nnn =>
    obtain ⟨-, rfl⟩ := h
    exact ((hs.setSlot rfl _ _).setSp rfl _).setPc _
  case ldImm x nn | addImm x nn | ldReg x y | orReg x y | andReg x y | xorReg x y | ldVxDT x =>
    obtain rfl := h
    exact (hs.setReg (List.mem_singleton.2 rfl) _).advance
  case addReg x y | sub x y | shr x y | subn x y | shl x y =>
    obtain rfl := h
    exact (hs.writeWithFlag (by simp [changesOf]) (by simp [changesOf]) (fun hx => decide_eq_true hx) _ _).advance
  case rnd x nn =>
    obtain rfl := h
    exact ((hs.setReg (List.mem_singleton.2 rfl) _).nextDraw rfl).advance
  case ldRegs x =>
    obtain ⟨-, rfl⟩ := h
    refine (hs.setRegs fun k hk => ?_).advance
    have hkx : ¬ k.val ≤ x.val := by simpa [changesOf] using hk
    rw [loadRegs_getElem, if_neg hkx]
    rfl
  case ldI nnn | addI x | ldF x =>
    obtain rfl := h
    exact (hs.setI rfl _).advance
  case cls =>
    obtain rfl := h
    exact (hs.setFb rfl _).advance
  case drw x y n =>
    obtain ⟨d, -, rfl⟩ := h
    exact ((hs.setFb rfl _).setReg (List.mem_singleton.2 rfl) _).advance
  case ldDTVx x =>
    obtain rfl := h
    exact (hs.setDT rfl _).advance
  case ldSTVx x =>
    obtain rfl := h
    exact (hs.setST rfl _).advance
  case ldVxK x =>
    obtain rfl := h
    exact hs.setMode rfl _
  case ldB x =>
    obtain ⟨-, rfl⟩ := h
    exact (Frame.of_storeAll s _ (decimalDigits (s.reg x))).advance
  case stRegs x =>
    obtain ⟨-, rfl⟩ := h
    have hf := (Frame.of_storeAll s s.I.toNat (regsUpTo s x)).advance
    rwa [regsUpTo_length] at hf

/-- An instruction that halts or completes changes nothing outside `changesOf`, the mode apart. -/
theorem exec_frame (h : exec i s = .next t) : Frame { changesOf i s with mode := true } s t := by
  rcases exec_inversion h with ⟨k, -, rfl⟩ | ⟨-, he⟩
  · exact (Frame.refl _ s).setMode rfl _
  · obtain ⟨hreg, hI, hstack, hDT, hST, hfb, -, hrest⟩ := he.frame
    exact ⟨hreg, hI, hstack, hDT, hST, hfb, nofun, hrest⟩

/-- The one slot an instruction can change is the one at `sp`, and 2NNN alone does, with its return address
(10_state.md R28, R29). -/
theorem Effect.slot (h : Effect i s t) (j : Fin 16) :
    t.stack[j] = s.stack[j] ∨ (j.val = s.sp.val ∧ (∃ nnn, i = .call nnn) ∧ t.stack[j] = s.pc + 2) := by
  cases i
  case call nnn =>
    obtain ⟨hsp, rfl⟩ := h
    by_cases hj : j.val = s.sp.val
    · exact .inr ⟨hj, ⟨nnn, rfl⟩, by simp [hj]⟩
    · exact .inl (by simp [Ne.symm hj])
  case ret =>
    obtain ⟨-, rfl⟩ := h
    exact .inl rfl
  all_goals exact .inl (by rw [(h.frame.stack_eq rfl).1])

/-- An instruction leaves memory as it is, or stores a run of bytes at `I` that fits (20_memory.md R57). -/
theorem Effect.mem_cases (h : Effect i s t) :
    t.mem = s.mem ∨ ∃ vs, s.I.toNat + vs.length ≤ Config.memSize ∧ t.mem = s.mem.storeAll s.I.toNat vs := by
  cases i
  case ldB x =>
    obtain ⟨hr, rfl⟩ := h
    exact .inr ⟨decimalDigits (s.reg x), hr, rfl⟩
  case stRegs x =>
    obtain ⟨hr, rfl⟩ := h
    exact .inr ⟨_, by rwa [regsUpTo_length], rfl⟩
  case ret | call nnn | skp x | sknp x | ldRegs x =>
    obtain ⟨-, rfl⟩ := h
    exact .inl rfl
  case drw x y n =>
    obtain ⟨d, -, rfl⟩ := h
    exact .inl rfl
  case addReg x y | sub x y | shr x y | subn x y | shl x y =>
    obtain rfl := h
    exact .inl (by simp)
  all_goals
    obtain rfl := h
    exact .inl rfl

/-- `pc` after an instruction that raises no fatal condition (40_cycle.md R110). -/
theorem Effect.pc_eq (h : Effect i s t) : t.pc = nextPc i s := by
  cases i
  case ret =>
    obtain ⟨hsp, rfl⟩ := h
    simp [nextPc, hsp]
  case call nnn =>
    obtain ⟨-, rfl⟩ := h
    rfl
  case seImm x nn | sneImm x nn | seReg x y | sneReg x y =>
    obtain rfl := h
    simp [nextPc, afterSkip]
  case skp x | sknp x =>
    obtain ⟨hk, rfl⟩ := h
    simp [nextPc, afterSkip, hk]
  case addReg x y | sub x y | shr x y | subn x y | shl x y =>
    obtain rfl := h
    simp [nextPc]
  case drw x y n =>
    obtain ⟨d, -, rfl⟩ := h
    rfl
  case ldB x | stRegs x | ldRegs x =>
    obtain ⟨-, rfl⟩ := h
    rfl
  all_goals
    obtain rfl := h
    rfl

end Effect

/-! ### Where `pc` goes (10_state.md R26, R27) -/

theorem zext12_toNat (nnn : Addr12) : (zext12 nnn).toNat = nnn.toNat := by
  simp only [zext12, BitVec.toNat_setWidth]
  omega

/-- The offset jump's sum is never truncated (10_state.md R27, 41_control_flow.md R128). -/
theorem zext12_add_zext8_toNat (nnn : Addr12) (v : Byte) : (zext12 nnn + zext8 v).toNat = nnn.toNat + v.toNat := by
  simp only [zext12, zext8, BitVec.toNat_add, BitVec.toNat_setWidth]
  omega

theorem afterSkip_cases (p : Word) (c : Bool) : afterSkip p c = p + 2 ∨ afterSkip p c = p + 4 := by
  cases c
  · exact .inl rfl
  · exact .inr rfl

/-- The places `pc` can go (10_state.md R27): it stays or advances by 2 or 4, or it is a stack slot, a jump's or a call's
target, or the sum of an offset jump. -/
theorem nextPc_cases (i : Instr) (s : State) :
    (nextPc i s = s.pc ∨ nextPc i s = s.pc + 2 ∨ nextPc i s = s.pc + 4) ∨
    (∃ j : Fin 16, nextPc i s = s.stack[j]) ∨
    (∃ nnn, (i = .jp nnn ∨ i = .call nnn) ∧ (nextPc i s).toNat = nnn.toNat) ∨
    (∃ nnn, i = .jpV0 nnn ∧ (nextPc i s).toNat = nnn.toNat + (s.reg 0).toNat) := by
  cases i
  case ret =>
    by_cases hsp : 0 < s.sp.val
    · exact .inr (.inl ⟨⟨s.sp.val - 1, by omega⟩, by simp [nextPc, hsp]⟩)
    · exact .inl (.inl (by simp [nextPc, hsp]))
  case jp nnn => exact .inr (.inr (.inl ⟨nnn, .inl rfl, zext12_toNat nnn⟩))
  case call nnn => exact .inr (.inr (.inl ⟨nnn, .inr rfl, zext12_toNat nnn⟩))
  case jpV0 nnn => exact .inr (.inr (.inr ⟨nnn, rfl, zext12_add_zext8_toNat nnn _⟩))
  case seImm x nn | sneImm x nn | seReg x y | sneReg x y | skp x | sknp x =>
    exact .inl (.inr (afterSkip_cases s.pc _))
  case ldVxK x => exact .inl (.inl rfl)
  all_goals exact .inl (.inr (.inl rfl))

/-- `pc` never passes 0x10FE, the highest target of an offset jump (10_state.md R27). -/
theorem nextPc_le (i : Instr) {s : State} (hpc : s.pc.toNat ≤ 0xFFE)
    (hstack : ∀ j : Fin 16, (s.stack[j]).toNat ≤ 0x1000) : (nextPc i s).toNat ≤ 0x10FE := by
  rcases nextPc_cases i s with (h | h | h) | ⟨j, h⟩ | ⟨nnn, -, h⟩ | ⟨nnn, -, h⟩
  · rw [h]; omega
  · rw [h]; bv_omega
  · rw [h]; bv_omega
  · rw [h]; exact (hstack j).trans (by decide)
  · rw [h]; omega
  · rw [h]; omega

/-- Where `pc` goes is even, if it and the stack are and the instruction's own target is (10_state.md R26). -/
theorem nextPc_even {i : Instr} {s : State} (hpc : s.pc.toNat % 2 = 0)
    (hstack : ∀ j : Fin 16, (s.stack[j]).toNat % 2 = 0)
    (htarget : ∀ nnn, i = .jp nnn ∨ i = .call nnn → nnn.toNat % 2 = 0)
    (hoffset : ∀ nnn, i = .jpV0 nnn → (nnn.toNat + (s.reg 0).toNat) % 2 = 0) : (nextPc i s).toNat % 2 = 0 := by
  rcases nextPc_cases i s with (h | h | h) | ⟨j, h⟩ | ⟨nnn, hi, h⟩ | ⟨nnn, hi, h⟩
  · rw [h]; exact hpc
  · rw [h]; bv_omega
  · rw [h]; bv_omega
  · rw [h]; exact hstack j
  · rw [h]; exact htarget nnn hi
  · rw [h]; exact hoffset nnn hi

/-! ### What a step and a transaction can do -/

/-- The inversion of `step`: every state a step can give (40_cycle.md R101 to R108). -/
theorem step_inversion {s t : State} (h : step s = .next t) :
    (s.mode ≠ .running ∧ t = s.reportMode) ∨
    (s.mode = .running ∧ 0xFFE < s.pc.toNat ∧ t = (s.setMode (.halted .fetchOutOfRange)).reportMode) ∨
    (s.mode = .running ∧ s.pc.toNat ≤ 0xFFE ∧
      ((∃ op, t = s.advance.setReport (.unknown s.pc op)) ∨ ∃ i u, exec i s = .next u ∧ t = u.reportMode)) := by
  rcases step_cases s with ⟨hm, hs⟩ | ⟨hm, hpc, hs⟩ | ⟨hm, hpc, op, -, ⟨e, -, hs⟩ | ⟨i, -, hs⟩⟩ <;> rw [hs] at h
  · exact .inl ⟨hm, (Host.Outcome.next.inj h).symm⟩
  · exact .inr (.inl ⟨hm, hpc, (Host.Outcome.next.inj h).symm⟩)
  · exact .inr (.inr ⟨hm, hpc, .inl ⟨op, (Host.Outcome.next.inj h).symm⟩⟩)
  · cases hu : exec i s with
    | next u =>
      rw [hu] at h
      exact .inr (.inr ⟨hm, hpc, .inr ⟨i, u, hu, (Host.Outcome.next.inj h).symm⟩⟩)
    | fault r => simp [hu, reported] at h
    | refused r => simp [hu, reported] at h

/-- A load that is not refused replaces memory and nothing else (60_exceptions.md R240). -/
theorem load_inversion {image : List Byte} {s t : State} (h : load image s = .next t) :
    t = s.setMem (s.mem.storeAll Config.programBase image) := by
  unfold load at h
  split at h
  · cases h
  · split at h
    · exact (Host.Outcome.next.inj h).symm
    · cases h

/-- A key report writes its flag, and where it completes a wait a register, `pc` and the mode (45_timers_input.md R206). -/
theorem setKey_cases (k : Key) (pressed : Bool) (s : State) :
    setKey k pressed s = s.setKeyFlag k pressed ∨
    ∃ x, s.mode = .awaitingKey x ∧ setKey k pressed s =
      (((s.setKeyFlag k pressed).setReg x (BitVec.ofNat 8 k.val)).advance).setMode .running := by
  cases hm : s.mode with
  | running => exact .inl (by simp [setKey, hm])
  | halted f => exact .inl (by simp [setKey, hm])
  | awaitingKey x =>
    by_cases hp : (pressed && !s.key[k]) = true
    · exact .inr ⟨x, rfl, by simp only [setKey, hm, if_pos hp]⟩
    · exact .inl (by simp only [setKey, hm, if_neg hp])

/-- No key report touches a timer (10_state.md R30). -/
theorem setKey_timers (k : Key) (pressed : Bool) (s : State) :
    (setKey k pressed s).DT = s.DT ∧ (setKey k pressed s).ST = s.ST := by
  rcases setKey_cases k pressed s with h | ⟨x, -, h⟩ <;> rw [h] <;> exact ⟨rfl, rfl⟩

/-! ### The invariant (10_state.md R27, 60_exceptions.md R224, R225) -/

/-- The part of the invariant that speaks of the machine alone and not of its last report. -/
def State.Bounded (s : State) : Prop :=
  s.mem.wf = true ∧ s.pc.toNat ≤ 0x10FE ∧ (∀ j : Fin 16, (s.stack[j]).toNat ≤ 0x1000) ∧
  (∀ x, s.mode = .awaitingKey x → s.pc.toNat ≤ 0xFFE)

theorem State.Inv.bounded {s : State} (h : s.Inv) : s.Bounded := by
  obtain ⟨hmem, hpc, hstack, hwait, -⟩ := h
  exact ⟨hmem, hpc, hstack, fun x hx => (hwait x hx).1⟩

/-- Reporting by the mode makes the report agree with it, so a bounded state then meets the whole invariant. -/
theorem State.Bounded.reportMode {s : State} (h : s.Bounded) : s.reportMode.Inv := by
  obtain ⟨hmem, hpc, hstack, hwait⟩ := h
  refine ⟨hmem, hpc, hstack, fun x hx => ⟨hwait x hx, ?_⟩, fun k => ?_⟩
  · rw [State.reportMode_mode] at hx
    rw [State.reportMode_report, hx, resultOfMode]
  · cases hm : s.mode <;> simp [resultOfMode, hm]

/-- Halting keeps the bounds, whatever the mode was. -/
theorem State.Bounded.halt {s : State} (h : s.Bounded) (k : Fault) : (s.setMode (.halted k)).Bounded := by
  obtain ⟨hmem, hpc, hstack, -⟩ := h
  exact ⟨hmem, hpc, hstack, nofun⟩

/-- Only FX0A makes a running core await a key, and it leaves `pc` where it is (45_timers_input.md R205). -/
theorem Effect.pc_of_awaitingKey {i : Instr} {s t : State} {x : Reg} (h : Effect i s t) (hrun : s.mode = .running)
    (hwait : t.mode = .awaitingKey x) : t.pc = s.pc := by
  cases i
  case ldVxK y =>
    obtain rfl := h
    rfl
  all_goals
    have hm := h.frame.mode_eq rfl
    rw [hwait, hrun] at hm
    cases hm

theorem Effect.bounded {i : Instr} {s t : State} (h : Effect i s t) (hs : s.Bounded) (hrun : s.mode = .running)
    (hfetch : s.pc.toNat ≤ 0xFFE) : t.Bounded := by
  obtain ⟨hmem, -, hstack, -⟩ := hs
  refine ⟨?_, ?_, fun j => ?_, fun x hx => ?_⟩
  · rcases h.mem_cases with hm | ⟨vs, hfit, hm⟩
    · rw [hm]; exact hmem
    · rw [hm]; exact Memory.wf_storeAll vs hmem hfit
  · rw [h.pc_eq]
    exact nextPc_le i hfetch hstack
  · rcases h.slot j with hj | ⟨-, -, hj⟩
    · rw [hj]; exact hstack j
    · rw [hj]; bv_omega
  · rw [h.pc_of_awaitingKey hrun hx]
    exact hfetch

/-- An unknown word moves `pc` alone, from where it could be fetched. -/
theorem inv_advance_unknown {s : State} (op : Word) (hs : s.Bounded) (hrun : s.mode = .running)
    (hfetch : s.pc.toNat ≤ 0xFFE) : (s.advance.setReport (.unknown s.pc op)).Inv := by
  obtain ⟨hmem, -, hstack, -⟩ := hs
  refine ⟨hmem, ?_, hstack, fun x hx => ?_, fun k => ?_⟩
  · rw [State.setReport_pc, State.advance_pc]
    bv_omega
  · simp [hrun] at hx
  · simp [hrun]

/-- Settles O16: every state a step gives is reported from a bounded one, or skips an unknown word. -/
theorem stepKeepsTheInvariant : Obligations.StepKeepsTheInvariant := by
  intro s t hinv hstep
  have hs := hinv.bounded
  rcases step_inversion hstep with ⟨-, rfl⟩ | ⟨-, -, rfl⟩ | ⟨hrun, hfetch, ⟨op, rfl⟩ | ⟨i, u, hu, rfl⟩⟩
  · exact hs.reportMode
  · exact (hs.halt _).reportMode
  · exact inv_advance_unknown op hs hrun hfetch
  · rcases exec_inversion hu with ⟨k, -, rfl⟩ | ⟨-, he⟩
    · exact (hs.halt k).reportMode
    · exact (he.bounded hs hrun hfetch).reportMode

/-- Settles O17: reset lists no memory, holds 0 in every slot and runs unreported. -/
theorem resetMeetsTheInvariant : Obligations.ResetMeetsTheInvariant :=
  ⟨Memory.wf_nil, by decide, by decide, nofun, fun _ => ⟨nofun, nofun⟩⟩

/-- Settles O19, from where `pc` can go and which slot can change: the pushed address is `pc + 2`. -/
theorem evenTargetsKeepPcEven : Obligations.EvenTargetsKeepPcEven := by
  intro i s t hpc hstack htarget hoffset h
  rcases exec_inversion h with ⟨k, -, rfl⟩ | ⟨-, he⟩
  · exact ⟨hpc, hstack⟩
  · refine ⟨?_, fun j => ?_⟩
    · rw [he.pc_eq]
      exact nextPc_even hpc hstack htarget hoffset
    · rcases he.slot j with hj | ⟨-, -, hj⟩
      · rw [hj]; exact hstack j
      · rw [hj]; bv_omega

/-! ### Who writes what (10_state.md R22 to R32) -/

/-- Of the stack an instruction changes at most the slot at `sp`, and only if it is 2NNN. -/
theorem exec_slot {i : Instr} {s t : State} (h : exec i s = .next t) (j : Fin 16) :
    t.stack[j] = s.stack[j] ∨ (j.val = s.sp.val ∧ ∃ nnn, i = .call nnn) := by
  rcases exec_inversion h with ⟨k, -, rfl⟩ | ⟨-, he⟩
  · exact .inl rfl
  · exact (he.slot j).imp_right fun ⟨hj, hi, _⟩ => ⟨hj, hi⟩

/-- Settles O21: 2NNN alone changes a slot, the one at `sp`, and the frames but those of 2NNN and 00EE keep `sp`. -/
theorem onlyCallAndReturnUseTheStack : Obligations.OnlyCallAndReturnUseTheStack := by
  intro i s t h
  refine ⟨fun hcall => ?_, fun hcall hret => ?_, fun j hj => ?_⟩
  · refine Vector.ext fun n hn => ?_
    exact (exec_slot h ⟨n, hn⟩).resolve_right fun ⟨_, nnn, hi⟩ => hcall nnn hi
  · cases i
    case call nnn => exact absurd rfl (hcall nnn)
    case ret => exact absurd rfl hret
    all_goals exact ((exec_frame h).stack_eq rfl).2
  · exact (exec_slot h j).resolve_right fun ⟨hsp, _⟩ => hj hsp

/-- Settles O22: FX15 and FX18 are the two instructions whose frames leave a timer out, and no load, key report or step of
a core that does not run reaches one. -/
theorem timersChangeOnlyByTheirWriters : Obligations.TimersChangeOnlyByTheirWriters := by
  refine ⟨fun i s t h => ?_, fun p s t h hne => ?_⟩
  · cases i
    case ldDTVx x | ldSTVx x =>
      obtain rfl := Host.Outcome.next.inj h
      exact ⟨rfl, rfl⟩
    all_goals exact ⟨(exec_frame h).DT_eq rfl, (exec_frame h).ST_eq rfl⟩
  · cases p with
    | reset => exact .inl rfl
    | tick => exact .inr (.inl rfl)
    | step =>
      refine .inr (.inr ⟨rfl, by_contra fun hm => ?_⟩)
      rcases step_inversion h with ⟨-, rfl⟩ | ⟨hrun, -⟩ | ⟨hrun, -⟩
      · simp at hne
      · exact hm hrun
      · exact hm hrun
    | load image =>
      obtain rfl := load_inversion h
      simp at hne
    | setKey k pressed =>
      obtain rfl := Host.Outcome.next.inj h
      simp [setKey_timers] at hne

/-- No step changes the key state (10_state.md R32). -/
theorem step_key {s t : State} (h : step s = .next t) : t.key = s.key := by
  rcases step_inversion h with ⟨-, rfl⟩ | ⟨-, -, rfl⟩ | ⟨-, -, ⟨op, rfl⟩ | ⟨i, u, hu, rfl⟩⟩
  · rfl
  · rfl
  · rfl
  · exact (exec_frame hu).key_eq

/-- Settles O23: the frames but those of 00E0 and DXYN keep the framebuffer, and every frame keeps the keys. -/
theorem framebufferAndKeyWriters : Obligations.FramebufferAndKeyWriters := by
  refine ⟨fun i s t h hne => ?_, fun s t h => step_key h⟩
  cases i
  case cls => exact .inl rfl
  case drw x y n => exact .inr ⟨x, y, n, rfl⟩
  all_goals exact absurd ((exec_frame h).fb_eq rfl) hne

/-- Settles O24: the frames but those of ANNN, FX1E and FX29 keep `I`. -/
theorem onlyIndexInstructionsWriteI : Obligations.OnlyIndexInstructionsWriteI := by
  intro i s t h hne
  cases i
  case ldI nnn => exact .inl ⟨nnn, rfl⟩
  case addI x => exact .inr (.inl ⟨x, rfl⟩)
  case ldF x => exact .inr (.inr ⟨x, rfl⟩)
  all_goals exact absurd ((exec_frame h).I_eq rfl) hne

/-- FX65 reaches `VF` only where it loads all sixteen registers (43_index_memory.md R175). -/
theorem eq_VF_of_mem_changesOf_ldRegs {x : Reg} {s : State} (h : VF ∈ (changesOf (.ldRegs x) s).regs) : x = VF := by
  have hx : VF ≤ x := by simpa [changesOf] using h
  exact Fin.last_le_iff.1 hx

/-- Settles O25: a changed `VF` is among the registers its instruction may change. -/
theorem vfChangesOnlyAsFlagOrDestination : Obligations.VFChangesOnlyAsFlagOrDestination := by
  intro i s t h hne
  have hVF : VF ∈ (changesOf i s).regs := by_contra fun hn => hne ((exec_frame h).reg_eq hn)
  cases i
  case addReg x y | sub x y | shr x y | subn x y | shl x y => exact .inl ⟨x, y, by simp⟩
  case drw x y n => exact .inr (.inl ⟨x, y, n, rfl⟩)
  case ldImm x nn | addImm x nn | rnd x nn =>
    obtain rfl := List.mem_singleton.1 hVF
    exact .inr (.inr (.inl ⟨nn, by simp⟩))
  case ldReg x y | orReg x y | andReg x y | xorReg x y =>
    obtain rfl := List.mem_singleton.1 hVF
    exact .inr (.inr (.inr (.inl ⟨y, by simp⟩)))
  case ldVxDT x =>
    obtain rfl := List.mem_singleton.1 hVF
    exact .inr (.inr (.inr (.inr (.inl rfl))))
  case ldRegs x =>
    obtain rfl := eq_VF_of_mem_changesOf_ldRegs hVF
    exact .inr (.inr (.inr (.inr (.inr rfl))))
  all_goals exact absurd hVF List.not_mem_nil

/-! ### The framebuffer read and reset (60_exceptions.md R237, 10_state.md R40) -/

/-- The framebuffer read is the rows one after the other. -/
theorem framebufferRead_eq_flatten (s : State) : framebufferRead s = s.fb.flatten.toList := by
  simp only [framebufferRead, Vector.flatten, Vector.toList_mk, Array.toList_flatten, Array.toList_map, List.map_map]
  rfl

/-- Settles O51: row `row` of the flattened rows begins at entry `row * 64`. -/
theorem framebufferReadIsRowMajor : Obligations.FramebufferReadIsRowMajor := by
  intro s
  rw [framebufferRead_eq_flatten]
  refine ⟨Vector.length_toList, fun row col => ?_⟩
  have hrow : (row.val * 64 + col.val) / 64 = row.val := by omega
  have hcol : (row.val * 64 + col.val) % 64 = col.val := by omega
  have hlt : row.val * 64 + col.val < 32 * 64 := by omega
  rw [Vector.getElem?_toList, Vector.getElem?_flatten, dif_pos hlt]
  simp only [hrow, hcol]
  rfl

theorem font_length : font.length = 80 := by decide

theorem resetByte_font {k : Nat} (h : k < 80) : some (resetByte k) = font[k]? := by
  rw [← font_length] at h
  simp [resetByte, h]

theorem resetByte_above_font {a : Nat} (h : 80 ≤ a) : resetByte a = 0 := by
  rw [← font_length] at h
  simp [resetByte, h]

/-- Settles O59: reset lists no memory, so every address reads as the font, or 0 above it. -/
theorem resetGivesTheTableOfResetValues : Obligations.ResetGivesTheTableOfResetValues := by
  intro s
  refine ⟨resetCore s, rfl, fun k hk => resetByte_font hk, fun a ha => resetByte_above_font ha, ?_⟩
  exact ⟨by simp [resetCore, State.reset, State.reg], rfl, rfl, by simp [resetCore, State.reset], rfl, rfl, rfl,
    fun row col => Framebuffer.pixel_blank row col, by simp [resetCore, State.reset], rfl⟩

end Sys2Proof.Machine
end

section
/-! PROOFS. Memory (20_memory.md): the invariant under every transaction of the host, the bytes an instruction can change,
and the fetch of stored bytes. -/

namespace Sys2Proof.Machine

/-! ### The invariant under the host's transactions (20_memory.md R62, 60_exceptions.md R233) -/

theorem imageFits_of_load {image : List Byte} {s t : State} (h : load image s = .next t) : imageFits image = true := by
  unfold load at h
  split at h
  · cases h
  · split at h
    · assumption
    · cases h

/-- An image that fits ends inside memory (60_exceptions.md R240). -/
theorem programBase_add_length_le {image : List Byte} (h : imageFits image = true) :
    Config.programBase + image.length ≤ Config.memSize := by
  have hlen : image.length ≤ 4096 - 0x200 := of_decide_eq_true h
  show 0x200 + image.length ≤ 4096
  omega

/-- The one component a reset keeps, the counter of free values, is no part of the invariant. -/
theorem inv_resetCore (s : State) : (resetCore s).Inv := resetMeetsTheInvariant

/-- A load writes memory alone, in its canonical form. -/
theorem State.Inv.load {image : List Byte} {s t : State} (hs : s.Inv) (h : load image s = .next t) : t.Inv := by
  obtain rfl := load_inversion h
  obtain ⟨hmem, hrest⟩ := hs
  exact ⟨Memory.wf_storeAll image hmem (programBase_add_length_le (imageFits_of_load h)), hrest⟩

/-- No part of the invariant speaks of a timer. -/
theorem State.Inv.tick {s : State} (hs : s.Inv) : (tick s).Inv := hs

/-- The press that ends a wait advances `pc` from where FX0A was fetched, and `Waiting` is no fault's report
(45_timers_input.md R206). -/
theorem State.Inv.setKey {s : State} (hs : s.Inv) (k : Key) (pressed : Bool) : (setKey k pressed s).Inv := by
  rcases setKey_cases k pressed s with h | ⟨x, hx, h⟩ <;> rw [h]
  · exact hs
  · obtain ⟨hmem, -, hstack, hwait, -⟩ := hs
    obtain ⟨hfetch, hreport⟩ := hwait x hx
    refine ⟨hmem, ?_, hstack, nofun, fun f => ?_⟩
    · show (s.pc + 2).toNat ≤ 0x10FE
      bv_omega
    · simp [hreport]

theorem State.Inv.perform {p : Transaction} {s t : State} (hs : s.Inv) (h : perform p s = .next t) : t.Inv := by
  cases p with
  | reset =>
    obtain rfl := Host.Outcome.next.inj h
    exact inv_resetCore s
  | load image => exact hs.load h
  | step => exact stepKeepsTheInvariant s t hs h
  | tick =>
    obtain rfl := Host.Outcome.next.inj h
    exact hs.tick
  | setKey k pressed =>
    obtain rfl := Host.Outcome.next.inj h
    exact hs.setKey k pressed

/-- The inversion of a run that begins with a transaction. -/
theorem performAll_cons_inversion {p : Transaction} {ts : List Transaction} {s t : State}
    (h : performAll (p :: ts) s = .next t) : ∃ u, perform p s = .next u ∧ performAll ts u = .next t := by
  cases hp : perform p s with
  | next u =>
    simp only [performAll, hp] at h
    exact ⟨u, rfl, h⟩
  | fault r => simp [performAll, hp] at h
  | refused r => simp [performAll, hp] at h

/-- What every transaction keeps, every run keeps. -/
theorem performAll_induction {P : State → Prop} (hP : ∀ p s t, P s → perform p s = .next t → P t)
    {ts : List Transaction} {s t : State} (hs : P s) (h : performAll ts s = .next t) : P t := by
  induction ts generalizing s with
  | nil =>
    obtain rfl := Host.Outcome.next.inj h
    exact hs
  | cons p ts ih =>
    obtain ⟨u, hu, hrun⟩ := performAll_cons_inversion h
    exact ih (hP p s u hs hu) hrun

/-- Settles O18, by induction on the transactions, from reset in particular. -/
theorem invariantHoldsForEveryInterleaving : Obligations.InvariantHoldsForEveryInterleaving := by
  have hrun {ts : List Transaction} {s t : State} (hs : s.Inv) (h : performAll ts s = .next t) : t.Inv :=
    performAll_induction (fun _ _ _ => State.Inv.perform) hs h
  exact ⟨fun _ _ _ hs h => hrun hs h, fun _ _ h => hrun resetMeetsTheInvariant h⟩

/-! ### The bytes an instruction can change (20_memory.md R57) -/

theorem Frame.read_eq {c : Changes} {s t : State} (h : Frame c s t) {a : Nat}
    (ha : ¬ (c.stored.1 ≤ a ∧ a < c.stored.1 + c.stored.2)) : t.mem.read a = s.mem.read a := by
  obtain ⟨-, -, -, -, -, -, -, -, -, -, hread⟩ := h
  exact hread a ha

/-- A byte that an instruction changes is one of those its frame leaves out. -/
theorem Effect.stored_of_read_ne {i : Instr} {s t : State} {a : Nat} (h : Effect i s t)
    (hne : t.mem.read a ≠ s.mem.read a) :
    (changesOf i s).stored.1 ≤ a ∧ a < (changesOf i s).stored.1 + (changesOf i s).stored.2 :=
  by_contra fun hn => hne (h.frame.read_eq hn)

/-- Settles O20: the frames of FX33 and FX55 alone leave bytes out, and both instructions complete only where those bytes
lie in memory. -/
theorem onlyStoresWriteMemory : Obligations.OnlyStoresWriteMemory := by
  intro i s t a h hne
  rcases exec_inversion h with ⟨k, -, rfl⟩ | ⟨-, he⟩
  · exact absurd rfl hne
  · obtain ⟨hlo, hhi⟩ := he.stored_of_read_ne hne
    cases i
    case ldB x =>
      obtain ⟨hfit, -⟩ := he
      simp only [changesOf, State.dataBase] at hlo hhi
      exact ⟨hlo, by omega, .inl ⟨x, rfl, by omega⟩⟩
    case stRegs x =>
      obtain ⟨hfit, -⟩ := he
      simp only [changesOf, State.dataBase] at hlo hhi
      exact ⟨hlo, by omega, .inr ⟨x, rfl, by omega⟩⟩
    all_goals exact absurd hhi (Nat.not_lt_zero a)

/-! ### The fetch of stored bytes (20_memory.md R65, 40_cycle.md R102) -/

/-- FX55 completes where its bytes lie in memory (43_index_memory.md R174). -/
theorem exec_stRegs_of_le {x : Reg} {s : State} (hfit : s.I.toNat + x.val ≤ 0xFFF) :
    exec (.stRegs x) s = .next (s.setMem (s.mem.storeAll s.I.toNat (regsUpTo s x))).advance := by
  rcases storeAtI_cases s (regsUpTo s x) with ⟨-, h⟩ | ⟨hout, -⟩
  · exact h
  · rw [inRange_false_iff, regsUpTo_length] at hout
    omega

/-- The bytes FX55 leaves from `I` on are the registers (43_index_memory.md R174). -/
theorem Memory.read_storeAll_regsUpTo (m : Memory) (a : Nat) (s : State) {x k : Reg} (hk : k.val ≤ x.val) :
    (m.storeAll a (regsUpTo s x)).read (a + k.val) = s.reg k := by
  have hlen : k.val < (regsUpTo s x).length := by rw [regsUpTo_length]; omega
  rw [Memory.read_storeAll_inside m a k.val _ hlen, regsUpTo_getD s x k hk]

/-- A running core runs the instruction that the word at `pc` decodes to (40_cycle.md R102 to R104). -/
theorem step_of_decodeWord {i : Instr} {s : State} (hrun : s.mode = .running) (hpc : s.pc.toNat ≤ 0xFFE)
    (hdec : decodeWord (s.mem.read s.pc.toNat ++ s.mem.read (s.pc.toNat + 1)) = .ok i) :
    step s = reported (exec i s) := by
  rcases step_cases s with ⟨hm, -⟩ | ⟨-, hout, -⟩ | ⟨-, -, op, rfl, ⟨e, he, -⟩ | ⟨i', hi', hs⟩⟩
  · exact absurd hrun hm
  · omega
  · cases hdec.symm.trans he
  · cases hdec.symm.trans hi'
    exact hs

/-- Settles O47: FX55 goes on at `I + k`, where the bytes of the next word are the ones it stored. -/
theorem nextStepFetchesStoredBytes : Obligations.NextStepFetchesStoredBytes := by
  intro x k j s t u i hrun hj hjx hnext hfit hstore hdec hexec
  rw [exec_stRegs_of_le hfit] at hstore
  obtain rfl := Host.Outcome.next.inj hstore
  have hpc : (s.pc + 2).toNat = s.I.toNat + k.val := by bv_omega
  have hstep : step (s.setMem (s.mem.storeAll s.I.toNat (regsUpTo s x))).advance = .next u.reportMode := by
    rw [step_of_decodeWord (i := i), hexec, reported_next]
    · exact hrun
    · show (s.pc + 2).toNat ≤ 0xFFE
      omega
    · have hlo := Memory.read_storeAll_regsUpTo s.mem s.I.toNat s (x := x) (k := k) (by omega)
      have hhi := Memory.read_storeAll_regsUpTo s.mem s.I.toNat s (k := j) hjx
      rw [hj, ← Nat.add_assoc] at hhi
      simp only [State.advance_mem, State.advance_pc, State.setMem_mem, State.setMem_pc, hpc, hlo, hhi, hdec]
  exact ⟨u.reportMode, hstep, rfl⟩

end Sys2Proof.Machine
end

section
/-! PROOFS. The encoding (30_encoding.md): a row's bit test decides the fields its pattern fixes, so a word that passes it is
laid out from that row and the word's own fields, and the decoder reads it back. -/

namespace Sys2Proof

/-! ### The rows of the opcode map (30_encoding.md R71 to R74) -/

/-- The instruction of the same row with the operands that a word's fields hold (30_encoding.md R72). -/
def Instr.withFieldsOf (w : Word) : Instr → Instr
  | .cls => .cls
  | .ret => .ret
  | .jp _ => .jp (fieldNNN w)
  | .call _ => .call (fieldNNN w)
  | .seImm _ _ => .seImm (fieldX w) (fieldNN w)
  | .sneImm _ _ => .sneImm (fieldX w) (fieldNN w)
  | .seReg _ _ => .seReg (fieldX w) (fieldY w)
  | .ldImm _ _ => .ldImm (fieldX w) (fieldNN w)
  | .addImm _ _ => .addImm (fieldX w) (fieldNN w)
  | .ldReg _ _ => .ldReg (fieldX w) (fieldY w)
  | .orReg _ _ => .orReg (fieldX w) (fieldY w)
  | .andReg _ _ => .andReg (fieldX w) (fieldY w)
  | .xorReg _ _ => .xorReg (fieldX w) (fieldY w)
  | .addReg _ _ => .addReg (fieldX w) (fieldY w)
  | .sub _ _ => .sub (fieldX w) (fieldY w)
  | .shr _ _ => .shr (fieldX w) (fieldY w)
  | .subn _ _ => .subn (fieldX w) (fieldY w)
  | .shl _ _ => .shl (fieldX w) (fieldY w)
  | .sneReg _ _ => .sneReg (fieldX w) (fieldY w)
  | .ldI _ => .ldI (fieldNNN w)
  | .jpV0 _ => .jpV0 (fieldNNN w)
  | .rnd _ _ => .rnd (fieldX w) (fieldNN w)
  | .drw _ _ _ => .drw (fieldX w) (fieldY w) (fieldN w)
  | .skp _ => .skp (fieldX w)
  | .sknp _ => .sknp (fieldX w)
  | .ldVxDT _ => .ldVxDT (fieldX w)
  | .ldVxK _ => .ldVxK (fieldX w)
  | .ldDTVx _ => .ldDTVx (fieldX w)
  | .ldSTVx _ => .ldSTVx (fieldX w)
  | .addI _ => .addI (fieldX w)
  | .ldF _ => .ldF (fieldX w)
  | .ldB _ => .ldB (fieldX w)
  | .stRegs _ => .stRegs (fieldX w)
  | .ldRegs _ => .ldRegs (fieldX w)

@[simp] theorem Instr.row_withFieldsOf (i : Instr) (w : Word) : (i.withFieldsOf w).row = i.row := by
  cases i <;> rfl

section RowTest

variable {pattern mnemonic : String} {value w : Word}

theorem eq_of_accepts_FFFF (h : (⟨pattern, mnemonic, 0xFFFF, value⟩ : OpcodeRow).accepts w = true) : value = w := by
  have hv : w &&& BitVec.allOnes 16 = value := beq_iff_eq.1 h
  rw [← hv, BitVec.and_allOnes]

theorem leadingNibble_of_accepts_F000 (h : (⟨pattern, mnemonic, 0xF000, value⟩ : OpcodeRow).accepts w = true) :
    leadingNibble value = leadingNibble w := by
  have hv : w &&& 0xF000#16 = value := beq_iff_eq.1 h
  rw [← hv, and_F000, leadingNibble_layoutXYN]

theorem layoutNNN_of_accepts_F000 (h : (⟨pattern, mnemonic, 0xF000, value⟩ : OpcodeRow).accepts w = true) :
    layoutNNN (leadingNibble value) (fieldNNN w) = w := by
  rw [leadingNibble_of_accepts_F000 h, layoutNNN_fields]

theorem layoutXNN_of_accepts_F000 (h : (⟨pattern, mnemonic, 0xF000, value⟩ : OpcodeRow).accepts w = true) :
    layoutXNN (leadingNibble value) (fieldX w) (fieldNN w) = w := by
  rw [leadingNibble_of_accepts_F000 h, layoutXNN_fields]

theorem layoutXYN_of_accepts_F000 (h : (⟨pattern, mnemonic, 0xF000, value⟩ : OpcodeRow).accepts w = true) :
    layoutXYN (leadingNibble value) (fieldX w) (fieldY w) (nibble (fieldN w)) = w := by
  rw [leadingNibble_of_accepts_F000 h]
  exact layoutXYN_fields w

theorem layoutXYN_of_accepts_F00F (h : (⟨pattern, mnemonic, 0xF00F, value⟩ : OpcodeRow).accepts w = true) :
    layoutXYN (leadingNibble value) (fieldX w) (fieldY w) (trailingNibble value) = w := by
  have hv : w &&& 0xF00F#16 = value := beq_iff_eq.1 h
  rw [← hv, and_F00F, leadingNibble_layoutXYN, trailingNibble_layoutXYN, layoutXYN_fields]

theorem layoutXNN_of_accepts_F0FF (h : (⟨pattern, mnemonic, 0xF0FF, value⟩ : OpcodeRow).accepts w = true) :
    layoutXNN (leadingNibble value) (fieldX w) (fieldNN value) = w := by
  have hv : w &&& 0xF0FF#16 = value := beq_iff_eq.1 h
  rw [← hv, and_F0FF, leadingNibble_layoutXNN, fieldNN_layoutXNN, layoutXNN_fields]

end RowTest

/-- A word that passes a row's test is the encoding of that row with the word's own fields. The cases are the masks: all
bits fixed, N1 alone, N1 and N4, N1 and the low byte; `(_ :)` has the row's value known before its fixed fields are
compared with the encoder's. -/
theorem encode_withFieldsOf {i : Instr} {w : Word} (h : i.row.accepts w = true) : encode (i.withFieldsOf w) = w := by
  cases i
  case cls | ret => exact (eq_of_accepts_FFFF h :)
  case jp | call | ldI | jpV0 => exact (layoutNNN_of_accepts_F000 h :)
  case seImm | sneImm | ldImm | addImm | rnd => exact (layoutXNN_of_accepts_F000 h :)
  case drw => exact (layoutXYN_of_accepts_F000 h :)
  case seReg | sneReg | ldReg | orReg | andReg | xorReg | addReg | sub | shr | subn | shl =>
    exact (layoutXYN_of_accepts_F00F h :)
  case skp | sknp | ldVxDT | ldVxK | ldDTVx | ldSTVx | addI | ldF | ldB | stRegs | ldRegs =>
    exact (layoutXNN_of_accepts_F0FF h :)

/-! ### The decoder, forwards and backwards (30_encoding.md R73) -/

theorem decodeWord_encode (i : Instr) : decodeWord (encode i) = .ok i := by
  cases i
  case cls | ret => rfl
  all_goals simp [encode, decodeWord]

theorem decodeWord_of_accepts {i : Instr} {w : Word} (h : i.row.accepts w = true) :
    decodeWord w = .ok (i.withFieldsOf w) := by
  rw [← decodeWord_encode (i.withFieldsOf w), encode_withFieldsOf h]

/-- The inversion of the decoder: each arm answers with a row whose test its word passes, and with the word's own fields.
Cases 31 to 39 are the last arm, where the leading nibble F is the one left over. -/
theorem decodeWord_inversion {w : Word} {i : Instr} (h : decodeWord w = .ok i) :
    i.row.accepts w = true ∧ i.withFieldsOf w = i := by
  revert h
  fun_cases decodeWord w <;> rintro ⟨⟩ <;> refine ⟨?_, rfl⟩
  case case1 | case2 => rfl
  case case31 | case32 | case33 | case34 | case35 | case36 | case37 | case38 | case39 =>
    simp only [imp_false] at *
    have hlead : leadingNibble w = 0xF#4 := by bv_omega
    simp only [OpcodeRow.accepts, Instr.row, beq_iff_eq, BitVec.ofNat_eq_ofNat, and_F0FF, *]
    rfl
  all_goals
    simp only [OpcodeRow.accepts, Instr.row, beq_iff_eq, BitVec.ofNat_eq_ofNat, and_F000, and_F00F, and_F0FF, *]
    rfl

/-- Settles O1: the two bytes are the word's, and decoding an encoded word undoes its layout. -/
theorem decodeOfEncodeGivesTheInstruction : Obligations.DecodeOfEncodeGivesTheInstruction := by
  intro i rest _
  rw [encodeBytes, List.cons_append, List.cons_append, List.nil_append, decode_bytes, decodeWord_encode]

/-- Settles O2: the decoder answers with the row whose test the word passes and with the word's fields, which lay it out. -/
theorem encodeOfDecodeGivesTheWord : Obligations.EncodeOfDecodeGivesTheWord := by
  intro w i h
  obtain ⟨haccepts, hfields⟩ := decodeWord_inversion h
  rw [← hfields, encode_withFieldsOf haccepts]

/-- Settles O3: two rows that accept one word both name the one instruction it decodes to. -/
theorem wordDecodesToTheRowItMatches : Obligations.WordDecodesToTheRowItMatches := by
  intro w i j
  refine ⟨fun hi => ⟨i.withFieldsOf w, decodeWord_of_accepts hi, i.row_withFieldsOf w⟩,
    fun h => (decodeWord_inversion h).1, fun hi hj => ?_⟩
  have hij : i.withFieldsOf w = j.withFieldsOf w :=
    Except.ok.inj ((decodeWord_of_accepts hi).symm.trans (decodeWord_of_accepts hj))
  rw [← i.row_withFieldsOf w, hij, j.row_withFieldsOf]

/-! ### The unknown words, by leading nibble (30_encoding.md R75) -/

section Unknown

variable {w : Word}

theorem decodeWord_unknown_iff_of_0 (h : leadingNibble w = 0x0#4) :
    decodeWord w = .error (.unknownOpcode w) ↔ w.toNat ≠ 0x00E0 ∧ w.toNat ≠ 0x00EE := by
  simp only [decodeWord, h]
  split
  case h_3 hcls hret =>
    exact iff_of_true rfl ⟨fun h => hcls (BitVec.eq_of_toNat_eq h), fun h => hret (BitVec.eq_of_toNat_eq h)⟩
  all_goals simp

theorem decodeWord_unknown_iff_of_5_or_9 (h : leadingNibble w = 0x5#4 ∨ leadingNibble w = 0x9#4) :
    decodeWord w = .error (.unknownOpcode w) ↔ w.toNat % 16 ≠ 0 := by
  rw [← trailingNibble_toNat]
  rcases h with h | h
  all_goals
    simp only [decodeWord, h]
    split
    case h_1 hlast => simp [hlast]
    case h_2 hlast => exact iff_of_true rfl fun h0 => hlast (BitVec.eq_of_toNat_eq h0)

theorem decodeWord_unknown_iff_of_8 (h : leadingNibble w = 0x8#4) :
    decodeWord w = .error (.unknownOpcode w) ↔ w.toNat % 16 ∈ [0x8, 0x9, 0xA, 0xB, 0xC, 0xD, 0xF] := by
  simp only [decodeWord, h, ← trailingNibble_toNat]
  split
  case h_10 =>
    simp only [imp_false, true_iff, List.mem_cons, List.not_mem_nil] at *
    bv_omega
  all_goals simp [*]

theorem decodeWord_unknown_iff_of_E (h : leadingNibble w = 0xE#4) :
    decodeWord w = .error (.unknownOpcode w) ↔ w.toNat % 256 ∉ [0x9E, 0xA1] := by
  simp only [decodeWord, h, ← fieldNN_toNat]
  split
  case h_3 =>
    simp only [imp_false, true_iff, List.mem_cons, List.not_mem_nil, or_false, not_or] at *
    bv_omega
  all_goals simp [*]

theorem decodeWord_unknown_iff_of_F (h : leadingNibble w = 0xF#4) :
    decodeWord w = .error (.unknownOpcode w) ↔
      w.toNat % 256 ∉ [0x07, 0x0A, 0x15, 0x18, 0x1E, 0x29, 0x33, 0x55, 0x65] := by
  simp only [decodeWord, h, ← fieldNN_toNat, BitVec.reduceEq, imp_false, not_false_eq_true]
  split
  case h_10 =>
    simp only [imp_false, true_iff, List.mem_cons, List.not_mem_nil, or_false, not_or] at *
    bv_omega
  all_goals simp [*]

theorem decodeWord_ne_unknown
    (h : leadingNibble w ∈ [0x1#4, 0x2#4, 0x3#4, 0x4#4, 0x6#4, 0x7#4, 0xA#4, 0xB#4, 0xC#4, 0xD#4]) :
    decodeWord w ≠ .error (.unknownOpcode w) := by
  simp only [List.mem_cons, List.not_mem_nil, or_false] at h
  rcases h with h | h | h | h | h | h | h | h | h | h <;> simp [decodeWord, h]

end Unknown

/-- A leading nibble with a line in R75's table, or one all of whose words are known. -/
theorem nibble_cases (a : BitVec 4) :
    a = 0x0#4 ∨ a = 0x5#4 ∨ a = 0x8#4 ∨ a = 0x9#4 ∨ a = 0xE#4 ∨ a = 0xF#4 ∨
      a ∈ [0x1#4, 0x2#4, 0x3#4, 0x4#4, 0x6#4, 0x7#4, 0xA#4, 0xB#4, 0xC#4, 0xD#4] := by
  revert a; decide

/-- Settles O4, one leading nibble after the other. -/
theorem unknownWordsAreExactlyTheTables : Obligations.UnknownWordsAreExactlyTheTables := by
  intro w
  rw [← leadingNibble_toNat]
  rcases nibble_cases (leadingNibble w) with h | h | h | h | h | h | h
  · simp [h, decodeWord_unknown_iff_of_0 h]
  · simp [h, decodeWord_unknown_iff_of_5_or_9 (.inl h)]
  · simp [h, decodeWord_unknown_iff_of_8 h]
  · simp [h, decodeWord_unknown_iff_of_5_or_9 (.inr h)]
  · simp [h, decodeWord_unknown_iff_of_E h]
  · simp [h, decodeWord_unknown_iff_of_F h]
  · refine iff_of_false (decodeWord_ne_unknown h) ?_
    simp only [List.mem_cons, List.not_mem_nil, or_false] at h
    rcases h with h | h | h | h | h | h | h | h | h | h <;> simp [h]

/-- Settles O5: the words are fixed, so the decoder runs on each. -/
theorem writtenOutWordsDecode : Obligations.WrittenOutWordsDecode := by
  unfold Obligations.WrittenOutWordsDecode
  decide

end Sys2Proof
end

section
/-! PROOFS. The cycle (40_cycle.md): every instruction ends in a next state, the halt or its own effect, and in the same one
whatever the report says; and what each kind of step gives. -/

namespace Sys2Proof.Machine

/-! ### Every instruction ends in a next state (40_cycle.md R100, R110) -/

theorem finish_next (s : State) (r : Except Fault State) : ∃ t, finish s r = .next t := by
  rcases finish_cases s r with ⟨t, -, h⟩ | ⟨k, -, h⟩
  · exact ⟨t, h⟩
  · exact ⟨_, h⟩

/-- No instruction faults or refuses: those with a fatal condition end in `finish`, the others in their own state. -/
theorem exec_next (i : Instr) (s : State) : ∃ t, exec i s = .next t := by
  cases i
  case ret | call nnn | skp x | sknp x | drw x y n | ldB x | stRegs x | ldRegs x => exact finish_next s _
  all_goals exact ⟨_, rfl⟩

/-- An instruction whose fatal condition holds halts the core, all else discarded (60_exceptions.md R222). -/
theorem exec_of_fatalOf_eq_some {i : Instr} {s : State} {k : Fault} (hk : fatalOf i s = some k) :
    exec i s = .next (s.setMode (.halted k)) := by
  obtain ⟨t, ht⟩ := exec_next i s
  rcases exec_inversion ht with ⟨k', hk', rfl⟩ | ⟨hnone, -⟩
  · cases hk.symm.trans hk'
    exact ht
  · cases hk.symm.trans hnone

/-- An instruction whose fatal condition does not hold has its own effect. -/
theorem exec_of_fatalOf_eq_none {i : Instr} {s : State} (hnone : fatalOf i s = none) :
    ∃ t, exec i s = .next t ∧ Effect i s t := by
  obtain ⟨t, ht⟩ := exec_next i s
  rcases exec_inversion ht with ⟨k, hk, -⟩ | ⟨-, he⟩
  · cases hnone.symm.trans hk
  · exact ⟨t, ht, he⟩

/-- Settles O13: the instruction has its effect, which moves `pc` as R110's table says. -/
theorem everyInstructionCompletesAtItsNextPc : Obligations.EveryInstructionCompletesAtItsNextPc := by
  intro i s hnone
  obtain ⟨t, ht, he⟩ := exec_of_fatalOf_eq_none hnone
  exact ⟨t, ht, he.pc_eq⟩

/-- Settles O11: a step reports what it gives, and the instruction it may run gives a next state. -/
theorem everyStepAnswersAStateWithAResult : Obligations.EveryStepAnswersAStateWithAResult := by
  intro s
  rcases step_cases s with ⟨-, hs⟩ | ⟨-, -, hs⟩ | ⟨-, -, op, -, ⟨e, -, hs⟩ | ⟨i, -, hs⟩⟩
  · exact ⟨_, _, hs, rfl⟩
  · exact ⟨_, _, hs, rfl⟩
  · exact ⟨_, _, hs, rfl⟩
  · obtain ⟨t, ht⟩ := exec_next i s
    rw [ht] at hs
    exact ⟨_, _, hs, rfl⟩

/-! ### The report is read by no instruction (40_cycle.md R100, 60_exceptions.md R239) -/

theorem fatalOf_withReport (i : Instr) (s : State) (r : Option StepResult) :
    fatalOf i { s with report := r } = fatalOf i s := by
  cases i <;> rfl

theorem writeWithFlag_withReport (s : State) (r : Option StepResult) (x : Reg) (v : Byte) (c : Bool) :
    writeWithFlag { s with report := r } x v c = { writeWithFlag s x v c with report := r } := by
  by_cases hx : x = VF
  · subst hx
    rw [writeWithFlag_VF, writeWithFlag_VF]
    rfl
  · rw [writeWithFlag_of_ne hx, writeWithFlag_of_ne hx]
    rfl

/-- The effects of one instruction on two states that differ in the report differ in the report alone. -/
theorem Effect.eq_withReport {i : Instr} {s t u : State} {r : Option StepResult} (h : Effect i s t)
    (hu : Effect i { s with report := r } u) : u = { t with report := r } := by
  cases i
  case ret | call nnn | skp x | sknp x | ldB x | stRegs x | ldRegs x =>
    obtain ⟨-, rfl⟩ := h
    obtain ⟨-, rfl⟩ := hu
    rfl
  case drw x y n =>
    obtain ⟨d, rfl, rfl⟩ := h
    obtain ⟨d', rfl, rfl⟩ := hu
    rfl
  case addReg x y | sub x y | shr x y | subn x y | shl x y =>
    obtain rfl := h
    obtain rfl := hu
    rw [writeWithFlag_withReport]
    rfl
  all_goals
    obtain rfl := h
    obtain rfl := hu
    rfl

/-- Settles O26: the fatal condition is the same under every report, and so is the effect. -/
theorem reportNeverInfluencesExecution : Obligations.ReportNeverInfluencesExecution := by
  intro i s t r h
  rcases exec_inversion h with ⟨k, hk, rfl⟩ | ⟨hnone, he⟩
  · exact exec_of_fatalOf_eq_some ((fatalOf_withReport i s r).trans hk)
  · obtain ⟨u, hu, heu⟩ := exec_of_fatalOf_eq_none ((fatalOf_withReport i s r).trans hnone)
    rw [hu, he.eq_withReport heu]

/-! ### The kinds of step (40_cycle.md R101 to R108) -/

theorem State.reportMode_of_mode {s : State} {m : Mode} (h : s.mode = m) :
    s.reportMode = { s with report := some (resultOfMode m) } := by
  rw [← h]
  rfl

/-- Two bytes that decode, with nothing left over, are a word that decodes (30_encoding.md R70). -/
theorem decodeWord_of_decode {hi lo : Byte} {i : Instr} (h : decode [hi, lo] = .ok (i, [])) :
    decodeWord (hi ++ lo) = .ok i := by
  cases hw : decodeWord (wordOfBytes hi lo) with
  | ok j =>
    simp only [decode, hw, Except.ok.injEq, Prod.mk.injEq, and_true] at h
    exact hw.trans (congrArg _ h)
  | error e => simp [decode, hw] at h

/-- A core that waits or has halted says so and does no more (40_cycle.md R105, R106). -/
theorem step_of_mode_ne_running {s : State} (h : s.mode ≠ .running) : step s = .next s.reportMode := by
  rcases step_cases s with ⟨-, hs⟩ | ⟨hrun, -⟩ | ⟨hrun, -⟩
  · exact hs
  · exact absurd hrun h
  · exact absurd hrun h

theorem step_of_fetchLimit_lt {s : State} (hrun : s.mode = .running) (hpc : 0xFFE < s.pc.toNat) :
    step s = .next (s.setMode (.halted .fetchOutOfRange)).reportMode := by
  rcases step_cases s with ⟨hm, -⟩ | ⟨-, -, hs⟩ | ⟨-, hin, -⟩
  · exact absurd hrun hm
  · exact hs
  · omega

theorem step_of_unknown {s : State} {op : Word} {e : DecodeError} (hrun : s.mode = .running)
    (hpc : s.pc.toNat ≤ 0xFFE) (hop : op = s.mem.read s.pc.toNat ++ s.mem.read (s.pc.toNat + 1))
    (hdec : decodeWord op = .error e) : step s = .next (s.advance.setReport (.unknown s.pc op)) := by
  subst hop
  rcases step_cases s with ⟨hm, -⟩ | ⟨-, hout, -⟩ | ⟨-, -, op, rfl, ⟨e', -, hs⟩ | ⟨i, hi, -⟩⟩
  · exact absurd hrun hm
  · omega
  · exact hs
  · cases hdec.symm.trans hi

/-- Settles O6: the step reports the instruction's state by its mode. -/
theorem stepRunsTheDecodedInstruction : Obligations.StepRunsTheDecodedInstruction := by
  intro s t i hrun hpc hdec _ hexec
  have hstep : step s = .next t.reportMode := by
    rw [step_of_decodeWord hrun hpc (decodeWord_of_decode hdec), hexec, reported_next]
  refine ⟨t.reportMode, hstep, rfl, fun h => ?_, fun x h => ?_, fun k h => ?_⟩
  all_goals rw [State.reportMode_report, h, resultOfMode]

/-- Settles O7: skipping an unknown word writes `pc` and the report. -/
theorem stepReportsAndSkipsUnknownWords : Obligations.StepReportsAndSkipsUnknownWords :=
  fun _ _ hrun hpc hop hdec => ⟨_, step_of_unknown hrun hpc hop hdec, rfl⟩

/-- Settles O8: the halt writes the mode, and the step reports it. -/
theorem stepBeyondTheFetchLimitHalts : Obligations.StepBeyondTheFetchLimitHalts :=
  fun _ hrun hpc => ⟨_, step_of_fetchLimit_lt hrun hpc, rfl⟩

/-- Settles O9: the core does not run, so the step reports its mode. -/
theorem stepWhileAwaitingChangesNothing : Obligations.StepWhileAwaitingChangesNothing :=
  fun _ _ hm => ⟨_, step_of_mode_ne_running (by simp [hm]), State.reportMode_of_mode hm⟩

/-- Settles O10: the core does not run, so the step reports its mode, which it may have reported before. -/
theorem stepWhileHaltedChangesNothing : Obligations.StepWhileHaltedChangesNothing := by
  intro s k hm
  have hreport : s.reportMode = { s with report := some (.fault k) } := State.reportMode_of_mode hm
  refine ⟨_, step_of_mode_ne_running (by simp [hm]), hreport, fun hr => ?_⟩
  rw [hreport, ← hr]

end Sys2Proof.Machine
end

section
/-! PROOFS. Control transfer (41_control_flow.md): where a jump, a skip, a call and a return leave `pc` and what they leave
unchanged, each read off the instruction's effect, its row of R110's table and its frame; and a return after a call. -/

namespace Sys2Proof.Machine

/-! ### Jumps and skips (41_control_flow.md R120 to R128) -/

/-- An instruction whose fatal condition does not hold moves `pc` as R110's table says and keeps what it does not name. -/
theorem exec_pc_and_frame {i : Instr} {s : State} (hnone : fatalOf i s = none) :
    ∃ t, exec i s = .next t ∧ t.pc = nextPc i s ∧ Frame (changesOf i s) s t := by
  obtain ⟨t, ht, he⟩ := exec_of_fatalOf_eq_none hnone
  exact ⟨t, ht, he.pc_eq, he.frame⟩

/-- Settles O27: the target is the operand zero-extended. -/
theorem jumpGoesToItsTarget : Obligations.JumpGoesToItsTarget := by
  intro nnn s
  obtain ⟨t, ht, hpc, hframe⟩ := exec_pc_and_frame (i := .jp nnn) (s := s) rfl
  exact ⟨t, ht, hpc ▸ zext12_toNat nnn, hframe⟩

/-- Settles O28: the sum of 12 bits and 8 bits does not reach 2^16. -/
theorem offsetJumpAddsVZero : Obligations.OffsetJumpAddsVZero := by
  intro nnn s
  obtain ⟨t, ht, hpc, hframe⟩ := exec_pc_and_frame (i := .jpV0 nnn) (s := s) rfl
  exact ⟨t, ht, hpc ▸ zext12_add_zext8_toNat nnn (s.reg 0), hframe⟩

theorem afterSkip_decide (p : Word) (c : Prop) [Decidable c] :
    afterSkip p (decide c) = if c then p + 4 else p + 2 := by
  simp only [afterSkip, decide_eq_true_eq]

/-- An instruction that changes nothing but `pc`, and skips under the condition `c` (41_control_flow.md R120). -/
theorem exec_skip {i : Instr} {s : State} {c : Prop} [Decidable c] (hnone : fatalOf i s = none)
    (hnext : nextPc i s = afterSkip s.pc (decide c)) (hkept : changesOf i s = {}) :
    ∃ t, exec i s = .next t ∧ t.pc = (if c then s.pc + 4 else s.pc + 2) ∧ Frame {} s t := by
  obtain ⟨t, ht, hpc, hframe⟩ := exec_pc_and_frame hnone
  exact ⟨t, ht, hpc.trans (hnext.trans (afterSkip_decide s.pc c)), hkept ▸ hframe⟩

/-- Settles O32: each of the four rows of R110's table is a skip under its own comparison. -/
theorem registerSkipsCompareAndSkip : Obligations.RegisterSkipsCompareAndSkip :=
  fun _ _ _ _ => ⟨exec_skip rfl rfl rfl, exec_skip rfl rfl rfl, exec_skip rfl rfl rfl, exec_skip rfl rfl rfl⟩

/-! ### Call and return (41_control_flow.md R121, R123) -/

/-- What neither of two instructions changes is unchanged after both. -/
theorem Frame.trans {c : Changes} {s t u : State} (hst : Frame c s t) (htu : Frame c t u) : Frame c s u := by
  obtain ⟨hreg, hI, hstack, hDT, hST, hfb, hmode, hdraws, hkey, hreport, hmem⟩ := hst
  obtain ⟨hreg', hI', hstack', hDT', hST', hfb', hmode', hdraws', hkey', hreport', hmem'⟩ := htu
  exact ⟨fun k hk => (hreg' k hk).trans (hreg k hk), fun hc => (hI' hc).trans (hI hc),
    fun hc => ⟨(hstack' hc).1.trans (hstack hc).1, (hstack' hc).2.trans (hstack hc).2⟩,
    fun hc => (hDT' hc).trans (hDT hc), fun hc => (hST' hc).trans (hST hc), fun hc => (hfb' hc).trans (hfb hc),
    fun hc => (hmode' hc).trans (hmode hc), fun hc => (hdraws' hc).trans (hdraws hc), hkey'.trans hkey,
    hreport'.trans hreport, fun a ha => (hmem' a ha).trans (hmem a ha)⟩

/-- Settles O29: with a live entry the fatal condition does not hold, so the pop has its effect. -/
theorem returnPopsOrUnderflows : Obligations.ReturnPopsOrUnderflows := by
  intro s
  refine ⟨fun j hj => ?_, fun h0 => exec_of_fatalOf_eq_some (if_pos h0)⟩
  have hnone : fatalOf .ret s = none := if_neg (by omega)
  obtain ⟨t, ht, he⟩ := exec_of_fatalOf_eq_none hnone
  have hframe : Frame { stack := true } s t := he.frame
  obtain ⟨hpos, rfl⟩ := he
  have hslot : s.sp.val - 1 = j.val := by omega
  exact ⟨_, ht, hslot, by simp [hslot], rfl, hframe⟩

/-- Settles O30: with room the fatal condition does not hold, so the push has its effect, on the slot at `sp` alone. -/
theorem callPushesOrOverflows : Obligations.CallPushesOrOverflows := by
  intro nnn s
  refine ⟨fun j hj => ?_, fun h16 => exec_of_fatalOf_eq_some (if_pos h16)⟩
  have hnone : fatalOf (.call nnn) s = none := if_neg (by omega)
  obtain ⟨t, ht, he⟩ := exec_of_fatalOf_eq_none hnone
  have hframe : Frame { stack := true } s t := he.frame
  have hother : ∀ m : Fin 16, m ≠ j → t.stack[m] = s.stack[m] := by
    intro m hm
    rcases he.slot m with h | ⟨hmsp, -⟩
    · exact h
    · exact absurd (Fin.ext (hmsp.trans hj)) hm
  obtain ⟨hroom, rfl⟩ := he
  exact ⟨_, ht, congrArg (· + 1) hj, by simp [hj], hother, zext12_toNat nnn, hframe⟩

/-- Settles O31: the return pops the slot at the `sp` from before the call, which the call filled with `p + 2`. -/
theorem callThenReturnComesBack : Obligations.CallThenReturnComesBack := by
  intro nnn s hroom
  obtain ⟨hcall, -⟩ := callPushesOrOverflows nnn s
  obtain ⟨u, hu, husp, hpushed, -, -, hsu⟩ := hcall ⟨s.sp.val, hroom⟩ rfl
  obtain ⟨hret, -⟩ := returnPopsOrUnderflows u
  obtain ⟨t, ht, htsp, htpc, -, hut⟩ := hret ⟨s.sp.val, hroom⟩ husp
  exact ⟨u, t, hu, ht, htpc.trans hpushed, Fin.ext htsp, hsu.trans hut⟩

end Sys2Proof.Machine
end

section
/-! PROOFS. Loads and the ALU (42_alu.md): the three shapes in which an instruction of this family ends (one register written;
a result and a flag in two registers; both in `VF`), the arithmetic of results and flags, and the statements from the two. -/

namespace Sys2Proof.Machine

/-! ### How a load or an ALU instruction ends (42_alu.md R141 to R154) -/

section Writers

variable {i : Instr} {s : State} {x : Reg} {v r : Byte} {c : Bool}

theorem exec_setReg (hexec : exec i s = .next (s.setReg x v).advance) :
    ∃ t, exec i s = .next t ∧ t.reg x = v ∧ t.pc = s.pc + 2 ∧ Frame { regs := [x] } s t :=
  ⟨_, hexec, by simp, rfl, ((Frame.refl _ s).setReg (List.mem_singleton.2 rfl) v).advance⟩

/-- A result and a flag that go to two registers: the flag, written second, leaves the result alone. -/
theorem exec_writeWithFlag_of_ne (hx : x ≠ VF) (hexec : exec i s = .next (writeWithFlag s x r c).advance) :
    ∃ t, exec i s = .next t ∧ t.reg x = r ∧ t.reg VF = flagByte c ∧ t.pc = s.pc + 2 ∧
      Frame { regs := [x, VF] } s t := by
  have hframe : Frame { regs := [x, VF] } s (writeWithFlag s x r c).advance :=
    ((Frame.refl _ s).writeWithFlag (by simp) (by simp) (fun h => absurd h hx) r c).advance
  rw [writeWithFlag_of_ne hx] at hexec hframe
  exact ⟨_, hexec, by simp [hx], by simp, rfl, hframe⟩

/-- A result and a flag that both go to `VF`: one free value is taken (42_alu.md R141). -/
theorem exec_writeWithFlag_VF (hexec : exec i s = .next (writeWithFlag s VF r c).advance) :
    ∃ t, exec i s = .next t ∧ t.pc = s.pc + 2 ∧ t.draws = s.draws + 1 ∧
      Frame { regs := [VF], draws := true } s t := by
  rw [writeWithFlag_VF] at hexec
  exact ⟨_, hexec, rfl, rfl, (((Frame.refl _ s).setReg (List.mem_singleton.2 rfl) _).nextDraw rfl).advance⟩

end Writers

/-! ### The flags in numbers (42_alu.md R149 to R153) -/

theorem flagByte_toNat (c : Bool) : (flagByte c).toNat = c.toNat := by
  cases c <;> rfl

theorem flagByte_carryOut (a b : Byte) : flagByte (carryOut a b) = if 255 < a.toNat + b.toNat then 1 else 0 := by
  simp only [flagByte, carryOut, decide_eq_true_eq]

theorem flagByte_notBorrow (a b : Byte) : flagByte (notBorrow a b) = if a.toNat < b.toNat then 0 else 1 := by
  simp only [flagByte, notBorrow, Bool.not_eq_true', decide_eq_false_iff_not, ite_not]

theorem flagByte_lowBit_toNat (a : Byte) : (flagByte (lowBit a)).toNat = a.toNat % 2 := by
  rw [flagByte_toNat, lowBit, BitVec.getLsbD, Nat.toNat_testBit, pow_zero, Nat.div_one]

theorem flagByte_highBit_toNat (a : Byte) : (flagByte (highBit a)).toNat = a.toNat / 128 := by
  rw [flagByte_toNat, highBit, BitVec.getLsbD, Nat.toNat_testBit]
  have ha : a.toNat < 256 := a.isLt
  omega

theorem toNat_sub_byte (a b : Byte) : (a - b).toNat = (a.toNat + 256 - b.toNat) % 256 := by
  rw [BitVec.toNat_sub]
  have hb : b.toNat < 256 := b.isLt
  omega

/-! ### Loads, copies and flagless arithmetic (42_alu.md R142 to R147) -/

/-- Settles O33: both instructions write one register. -/
theorem loadsAndCopiesSetOneRegister : Obligations.LoadsAndCopiesSetOneRegister :=
  fun _ _ _ _ => ⟨exec_setReg rfl, exec_setReg rfl⟩

/-- Settles O34: the one register written gets the sum of two bytes as a byte. -/
theorem addImmediateWrapsWithoutFlag : Obligations.AddImmediateWrapsWithoutFlag := by
  intro x nn s
  obtain ⟨t, ht, hreg, hpc, hframe⟩ := exec_setReg (i := .addImm x nn) (s := s) rfl
  exact ⟨t, ht, hreg ▸ BitVec.toNat_add _ _, hpc, hframe⟩

/-- An instruction whose one register written gets, at each bit, `f` of the bits of two bytes there. -/
theorem exec_bitwise {i : Instr} {s : State} {x : Reg} {v a b : Byte} {f : Bool → Bool → Bool}
    (hexec : exec i s = .next (s.setReg x v).advance)
    (hbits : ∀ k, v.getLsbD k = f (a.getLsbD k) (b.getLsbD k)) :
    ∃ t, exec i s = .next t ∧ t.pc = s.pc + 2 ∧ Frame { regs := [x] } s t ∧
      ∀ k, (t.reg x).getLsbD k = f (a.getLsbD k) (b.getLsbD k) := by
  obtain ⟨t, ht, rfl, hpc, hframe⟩ := exec_setReg hexec
  exact ⟨t, ht, hpc, hframe, hbits⟩

/-- Settles O35: each of the three writes one register, with the library's bit of an OR, an AND and an XOR. -/
theorem bitwiseOperationsActBitByBit : Obligations.BitwiseOperationsActBitByBit :=
  fun _ _ _ => ⟨exec_bitwise rfl fun _ => BitVec.getLsbD_or, exec_bitwise rfl fun _ => BitVec.getLsbD_and,
    exec_bitwise rfl fun _ => BitVec.getLsbD_xor⟩

/-! ### Flag writers (42_alu.md R141, R149 to R153) -/

/-- Settles O36: the flag is computed from the operands as they were before the sum was written. -/
theorem addRegistersReportsCarry : Obligations.AddRegistersReportsCarry := by
  intro x y s hx
  obtain ⟨t, ht, hreg, hflag, hpc, hframe⟩ := exec_writeWithFlag_of_ne (i := .addReg x y) (s := s) hx rfl
  exact ⟨t, ht, hreg ▸ BitVec.toNat_add _ _, hflag.trans (flagByte_carryOut _ _), hpc, hframe⟩

/-- A subtraction `a - b`, whichever of the two registers `a` is. -/
theorem exec_difference {i : Instr} {s : State} {x : Reg} {a b : Byte} (hx : x ≠ VF)
    (hexec : exec i s = .next (writeWithFlag s x (a - b) (notBorrow a b)).advance) :
    ∃ t, exec i s = .next t ∧ (t.reg x).toNat = (a.toNat + 256 - b.toNat) % 256 ∧
      t.reg VF = (if a.toNat < b.toNat then 0 else 1) ∧ t.pc = s.pc + 2 ∧ Frame { regs := [x, VF] } s t := by
  obtain ⟨t, ht, hreg, hflag, hpc, hframe⟩ := exec_writeWithFlag_of_ne hx hexec
  exact ⟨t, ht, hreg ▸ toNat_sub_byte a b, hflag.trans (flagByte_notBorrow a b), hpc, hframe⟩

/-- Settles O37: the two instructions are one subtraction with its operands exchanged. -/
theorem subtractionsReportNotBorrow : Obligations.SubtractionsReportNotBorrow :=
  fun _ _ _ hx => ⟨exec_difference hx rfl, exec_difference hx rfl⟩

/-- Settles O38: a shift by one halves or doubles, the bit it moves out is bit 0 or bit 7, and no meaning names `y`. -/
theorem shiftsReportTheBitShiftedOut : Obligations.ShiftsReportTheBitShiftedOut := by
  intro x y s hx
  refine ⟨?_, ?_, fun _ => ⟨rfl, rfl⟩⟩
  · obtain ⟨t, ht, hreg, hflag, hpc, hframe⟩ := exec_writeWithFlag_of_ne (i := .shr x y) (s := s) hx rfl
    refine ⟨t, ht, ?_, hflag ▸ flagByte_lowBit_toNat _, hpc, hframe⟩
    rw [hreg, BitVec.toNat_ushiftRight, Nat.shiftRight_one]
  · obtain ⟨t, ht, hreg, hflag, hpc, hframe⟩ := exec_writeWithFlag_of_ne (i := .shl x y) (s := s) hx rfl
    refine ⟨t, ht, ?_, hflag ▸ flagByte_highBit_toNat _, hpc, hframe⟩
    rw [hreg, BitVec.toNat_shiftLeft, Nat.shiftLeft_eq, pow_one]

/-- Settles O39: each of the five writes its result and its flag in the one way that takes a free value for `VF`. -/
theorem flagWritersRunWithVFAsDestination : Obligations.FlagWritersRunWithVFAsDestination := by
  rintro i y s (rfl | rfl | rfl | rfl | rfl) <;> exact exec_writeWithFlag_VF rfl

/-! ### The random byte (42_alu.md R154) -/

/-- Settles O40: the register holds an AND with the mask, so a bit the mask lacks is 0 whatever was drawn. -/
theorem randomByteStaysUnderItsMask : Obligations.RandomByteStaysUnderItsMask := by
  intro x nn s
  have hreg : (s.setReg x (Config.randomByte s.draws &&& nn)).nextDraw.advance.reg x =
      Config.randomByte s.draws &&& nn := by simp
  refine ⟨_, rfl, fun r hr => hr ▸ hreg, fun b hb => ?_, rfl, rfl,
    (((Frame.refl _ s).setReg (List.mem_singleton.2 rfl) _).nextDraw rfl).advance⟩
  rw [hreg, BitVec.getLsbD_and, hb, Bool.and_false]

end Sys2Proof.Machine
end

section
/-! PROOFS. The index register and memory transfers (43_index_memory.md): the one shape in which a write of `I` ends, the
bytes that a store leaves at `I` and those that a load finds there, and the statements from them and the instructions'
effects; that stored registers load back joins the statements on FX55 and FX65. -/

namespace Sys2Proof.Machine

/-! ### Writes of `I` (43_index_memory.md R170 to R172) -/

theorem exec_setI {i : Instr} {s : State} {v : Word} (hexec : exec i s = .next (s.setI v).advance) :
    ∃ t, exec i s = .next t ∧ t.I = v ∧ t.pc = s.pc + 2 ∧ Frame { index := true } s t :=
  ⟨_, hexec, rfl, rfl, ((Frame.refl _ s).setI rfl v).advance⟩

/-- Masking with 0x0F keeps the low nibble, and five times a nibble fits in 16 bits. -/
theorem glyphAddress_toNat (v : Byte) : (glyphAddress v).toNat = 0x000 + 5 * (v.toNat % 16) := by
  have hmask : (v &&& 0x0F).toNat = v.toNat % 16 := by
    rw [BitVec.toNat_and]
    exact Nat.and_two_pow_sub_one_eq_mod v.toNat 4
  rw [glyphAddress, hmask, BitVec.toNat_ofNat]
  simp only [Config.fontBase, Config.glyphBytes]
  omega

/-- Settles O41: both instructions write `I`, with the operand zero-extended and with the address of a glyph. -/
theorem indexIsSetToValueOrGlyph : Obligations.IndexIsSetToValueOrGlyph := by
  intro nnn x s
  constructor
  · obtain ⟨t, ht, hI, hpc, hframe⟩ := exec_setI (i := .ldI nnn) (s := s) rfl
    exact ⟨t, ht, hI ▸ zext12_toNat nnn, hpc, hframe⟩
  · obtain ⟨t, ht, hI, hpc, hframe⟩ := exec_setI (i := .ldF x) (s := s) rfl
    exact ⟨t, ht, hI ▸ glyphAddress_toNat (s.reg x), hpc, hframe⟩

theorem add_zext8_toNat (w : Word) (v : Byte) : (w + zext8 v).toNat = (w.toNat + v.toNat) % 65536 := by
  rw [BitVec.toNat_add, zext8, BitVec.toNat_setWidth_of_le (by decide)]

/-- Settles O42: the sum is one of 16-bit words. -/
theorem addToIndexWrapsAtSixteenBits : Obligations.AddToIndexWrapsAtSixteenBits := by
  intro x s
  obtain ⟨t, ht, hI, hpc, hframe⟩ := exec_setI (i := .addI x) (s := s) rfl
  exact ⟨t, ht, hI ▸ add_zext8_toNat s.I (s.reg x), hpc, hframe⟩

/-! ### Stores at `I` (43_index_memory.md R173, R174) -/

/-- The bytes FX33 leaves at `a`: hundreds, tens and units. -/
theorem Memory.read_storeAll_decimalDigits (m : Memory) (a : Nat) (v : Byte) :
    ((m.storeAll a (decimalDigits v)).read a).toNat = v.toNat / 100 ∧
    ((m.storeAll a (decimalDigits v)).read (a + 1)).toNat = v.toNat / 10 % 10 ∧
    ((m.storeAll a (decimalDigits v)).read (a + 2)).toNat = v.toNat % 10 := by
  have hread (k : Nat) (hk : k < 3) : (m.storeAll a (decimalDigits v)).read (a + k) = (decimalDigits v).getD k 0 :=
    Memory.read_storeAll_inside m a k _ hk
  have hv : v.toNat < 256 := v.isLt
  refine ⟨(congrArg BitVec.toNat (hread 0 (by decide))).trans ?_,
    (congrArg BitVec.toNat (hread 1 (by decide))).trans ?_, (congrArg BitVec.toNat (hread 2 (by decide))).trans ?_⟩
  all_goals exact Nat.mod_eq_of_lt (by omega)

/-- Settles O43: where the fatal condition does not hold, the bytes at `I` are the digits of a number below 256. -/
theorem decimalDigitsAreStored : Obligations.DecimalDigitsAreStored := by
  intro x s
  refine ⟨fun hfit => ?_, fun hout => exec_of_fatalOf_eq_some (if_pos hout)⟩
  have hnone : fatalOf (.ldB x) s = none := if_neg (by omega)
  obtain ⟨t, ht, he⟩ := exec_of_fatalOf_eq_none hnone
  have hframe : Frame { stored := (s.dataBase, 3) } s t := he.frame
  obtain ⟨-, rfl⟩ := he
  obtain ⟨hhundreds, htens, hunits⟩ := Memory.read_storeAll_decimalDigits s.mem s.I.toNat (s.reg x)
  have hbyte : (s.reg x).toNat < 256 := (s.reg x).isLt
  refine ⟨_, ht, ?_, ?_, ?_, ?_, rfl, hframe⟩ <;>
    simp only [State.advance_mem, State.setMem_mem, hhundreds, htens, hunits] <;> omega

/-- Settles O44: where the fatal condition does not hold, FX55 has its effect, which leaves the registers at `I`. -/
theorem registersAreStored : Obligations.RegistersAreStored := by
  intro x s
  refine ⟨fun hfit => ?_, fun hout => exec_of_fatalOf_eq_some (if_pos hout)⟩
  have hnone : fatalOf (.stRegs x) s = none := if_neg (by omega)
  obtain ⟨t, ht, he⟩ := exec_of_fatalOf_eq_none hnone
  have hframe : Frame { stored := (s.dataBase, x.val + 1) } s t := he.frame
  obtain ⟨-, rfl⟩ := he
  exact ⟨_, ht, fun k hk => Memory.read_storeAll_regsUpTo s.mem s.I.toNat s hk, rfl, hframe⟩

/-! ### Loads from `I` (43_index_memory.md R175) -/

/-- What loading the bytes `f 0` to `f x` leaves in each register. -/
theorem loadRegs_map_range_getElem (V : Vector Byte 16) (x : Reg) (f : Nat → Byte) (k : Reg) :
    (loadRegs V x ((List.range (x.val + 1)).map f))[k] = if k.val ≤ x.val then f k.val else V[k] := by
  rw [loadRegs_getElem]
  refine if_ctx_congr Iff.rfl (fun hk => ?_) fun _ => rfl
  have hlt : k.val < x.val + 1 := by omega
  simp [hlt]

/-- Settles O45: where the fatal condition does not hold, FX65 has its effect, which loads the bytes at `I`. -/
theorem registersAreLoaded : Obligations.RegistersAreLoaded := by
  intro x s
  refine ⟨fun hfit => ?_, fun hout => exec_of_fatalOf_eq_some (if_pos hout)⟩
  have hnone : fatalOf (.ldRegs x) s = none := if_neg (by omega)
  obtain ⟨t, ht, -, rfl⟩ := exec_of_fatalOf_eq_none hnone
  exact ⟨_, ht, loadRegs_map_range_getElem s.V x fun j => s.mem.read (s.I.toNat + j), rfl,
    ((Frame.refl _ s).setRegs fun k hk => absurd (List.mem_finRange k) hk).advance⟩

/-- Settles O46: FX55 leaves `I` (decision D13), so the FX65 finds at `I` the registers that FX55 stored there. -/
theorem storedRegistersLoadBack : Obligations.StoredRegistersLoadBack := by
  intro x s u V hfit hu
  obtain ⟨hstores, -⟩ := registersAreStored x s
  obtain ⟨u', hu', hstored, -, hframe⟩ := hstores hfit
  obtain rfl := Host.Outcome.next.inj (hu.symm.trans hu')
  have hI : u.I = s.I := hframe.I_eq rfl
  obtain ⟨hloads, -⟩ := registersAreLoaded x { u with V := V }
  obtain ⟨t, ht, hloaded, -, -⟩ := hloads (by simpa only [hI] using hfit)
  refine ⟨t, ht, fun k => (hloaded k).trans (if_ctx_congr Iff.rfl (fun hk => ?_) fun _ => rfl)⟩
  rw [hI]
  exact hstored k hk

end Sys2Proof.Machine
end

section
/-! PROOFS. The display (44_display.md): 00E0 from its effect; the rasterizer's flips on the pixels that the sprite in memory
lands on, and from them the statements about one draw and about two draws of one sprite. -/

namespace Sys2Proof.Machine

/-! ### Clearing the framebuffer (44_display.md R191) -/

/-- Settles O48: the framebuffer written is the blank one. -/
theorem clearUnsetsEveryPixel : Obligations.ClearUnsetsEveryPixel := fun s =>
  ⟨_, rfl, Framebuffer.pixel_blank, rfl, ((Frame.refl _ s).setFb rfl Framebuffer.blank).advance⟩

/-! ### Flips, once and twice (44_display.md R192, R194) -/

/-- A drawing that starts without a collision collides exactly if one of the pixels to flip is set. -/
theorem Flips.collide_iff {P : Fin 32 → Fin 64 → Prop} {fb : Framebuffer} {e : Drawing} (h : Flips P ⟨fb, false⟩ e) :
    e.collide = true ↔ ∃ row col, P row col ∧ fb.pixel row col = true := by
  simpa only [Bool.false_eq_true, false_or] using h.collide

/-- Flipping the same pixels again restores the framebuffer. -/
theorem Flips.fb_eq_of_twice {P : Fin 32 → Fin 64 → Prop} {fb fb' : Framebuffer} {a b c : Bool} {e : Drawing}
    (h1 : Flips P ⟨fb, a⟩ ⟨fb', b⟩) (h2 : Flips P ⟨fb', c⟩ e) : e.fb = fb := by
  refine Framebuffer.ext_pixel fun row col => ?_
  by_cases hp : P row col
  · rw [h2.hit row col hp, h1.hit row col hp, Bool.not_not]
  · rw [h2.miss row col hp, h1.miss row col hp]

/-! ### One draw (44_display.md R190, R192, R193) -/

theorem flagByte_eq_one_iff (c : Bool) : flagByte c = 1 ↔ c = true := by
  cases c <;> decide

section Draw

variable {x y : Reg} {n : Fin 16} {s t : State}

/-- The pixels that the rasterizer reaches with the bytes at `I` and the corner reduced are those the sprite lands on. -/
theorem spriteHits_iff_landsOn (row : Fin 32) (col : Fin 64) :
    spriteHits ((s.reg x).toNat % 64) ((s.reg y).toNat % 32)
      ((List.range n.val).map fun r => s.mem.read (s.I.toNat + r)) n.val row col ↔ LandsOn s x y n row col := by
  have hbyte (r : Nat) (hr : r < n.val) :
      ((List.range n.val).map fun r => s.mem.read (s.I.toNat + r)).getD r 0 = s.mem.read (s.I.toNat + r) := by
    simp [hr]
  constructor
  · rintro ⟨r, hr, c, hc, hbit, hrow, hcol⟩
    rw [hbyte r hr] at hbit
    exact ⟨r, c, hr, hc, hbit, by rw [hrow, Nat.mod_add_mod], by rw [hcol, Nat.mod_add_mod]⟩
  · rintro ⟨r, c, hr, hc, hbit, hrow, hcol⟩
    rw [← hbyte r hr] at hbit
    exact ⟨r, hr, c, hc, hbit, by rw [hrow, Nat.mod_add_mod], by rw [hcol, Nat.mod_add_mod]⟩

/-- A draw flips the pixels its sprite lands on, and `VF` holds whether it collided. -/
theorem Effect.flips_landsOn (h : Effect (.drw x y n) s t) :
    ∃ c, t.reg VF = flagByte c ∧ Flips (LandsOn s x y n) ⟨s.fb, false⟩ ⟨t.fb, c⟩ := by
  obtain ⟨d, hd, rfl⟩ := h
  have hflips := drawSprite_flips ((s.reg x).toNat % 64) ((s.reg y).toNat % 32)
    ((List.range n.val).map fun r => s.mem.read (s.I.toNat + r)) s.fb
    (by rw [List.length_map, List.length_range]; omega)
  rw [List.length_map, List.length_range, ← hd] at hflips
  have hpixels : spriteHits _ _ _ n.val = LandsOn s x y n :=
    funext fun row => funext fun col => propext (spriteHits_iff_landsOn row col)
  exact ⟨d.collide, by simp, hpixels ▸ hflips⟩

/-- A draw moves neither `I` nor the sprite's bytes nor its corner, so the sprite lands where it did. -/
theorem Frame.landsOn_eq (h : Frame { regs := [VF], frame := true } s t) (hx : x ≠ VF) (hy : y ≠ VF) :
    LandsOn t x y n = LandsOn s x y n := by
  have hregx : t.reg x = s.reg x := h.reg_eq (by simpa using hx)
  have hregy : t.reg y = s.reg y := h.reg_eq (by simpa using hy)
  have hI : t.I = s.I := h.I_eq rfl
  obtain ⟨-, -, -, -, -, -, -, -, -, -, hmem⟩ := h
  have hread (a : Nat) : t.mem.read a = s.mem.read a := hmem a (by simp)
  funext row col
  simp only [LandsOn, hregx, hregy, hI, hread]

/-- The answer of an instruction whose fatal condition does not hold is its own effect. -/
theorem effect_of_fatalOf_eq_none {i : Instr} (hnone : fatalOf i s = none) (h : exec i s = .next t) : Effect i s t := by
  obtain ⟨t', ht', he⟩ := exec_of_fatalOf_eq_none hnone
  obtain rfl := Host.Outcome.next.inj (h.symm.trans ht')
  exact he

end Draw

/-- Settles O49: a draw inside memory has its effect, which flips the pixels its sprite lands on. -/
theorem drawFlipsExactlyTheSpritePixels : Obligations.DrawFlipsExactlyTheSpritePixels := by
  intro x y n s hfit
  have hnone : fatalOf (.drw x y n) s = none := if_neg (by omega)
  obtain ⟨t, ht, he⟩ := exec_of_fatalOf_eq_none hnone
  obtain ⟨c, hVF, hflips⟩ := he.flips_landsOn
  refine ⟨t, ht, hflips.hit, hflips.miss, fun hset => ?_, fun hunset => ?_, he.pc_eq, he.frame⟩
  · rw [hVF, flagByte_eq_one_iff]
    exact hflips.collide_iff.2 hset
  · have hc : c = false := Bool.eq_false_iff.2 (mt hflips.collide_iff.1 hunset)
    rw [hVF, hc]
    rfl

/-! ### Two draws of one sprite (44_display.md R194) -/

/-- Settles O50: both draws flip the same pixels, and one of them is set before the second draw if it was unset before the
first. -/
theorem drawingTwiceRestoresTheFramebuffer : Obligations.DrawingTwiceRestoresTheFramebuffer := by
  intro x y n s u t hx hy hnone hu ht
  have hfirst : Effect (.drw x y n) s u := effect_of_fatalOf_eq_none hnone hu
  have hframe : Frame { regs := [VF], frame := true } s u := hfirst.frame
  have hnone' : fatalOf (.drw x y n) u = none := by simpa only [fatalOf, hframe.I_eq rfl] using hnone
  obtain ⟨_, -, hflips⟩ := hfirst.flips_landsOn
  obtain ⟨c, hVF, hflips'⟩ := (effect_of_fatalOf_eq_none hnone' ht).flips_landsOn
  rw [hframe.landsOn_eq hx hy] at hflips'
  refine ⟨hflips.fb_eq_of_twice hflips', ?_⟩
  calc t.reg VF = 1
    _ ↔ c = true := by rw [hVF, flagByte_eq_one_iff]
    _ ↔ ∃ row col, LandsOn s x y n row col ∧ u.fb.pixel row col = true := hflips'.collide_iff
    _ ↔ ∃ row col, LandsOn s x y n row col ∧ s.fb.pixel row col = false :=
      exists_congr fun row => exists_congr fun col => and_congr_right fun hlands => by
        rw [hflips.hit row col hlands, Bool.not_eq_true']

end Sys2Proof.Machine
end

section
/-! PROOFS. Timers and input (45_timers_input.md): the key skips, the timer instructions and the entry of the key wait, each
read off the instruction's effect and its frame; what a key report does, and from it how a key wait ends. -/

namespace Sys2Proof.Machine

/-! ### Key skips (45_timers_input.md R200, R201) -/

/-- The key that `nextPc` looks up in a list is the one the register names. -/
theorem key_getD_eq {s : State} {x : Reg} {k : Key} (hk : (s.reg x).toNat = k.val) :
    s.key.toList.getD (s.reg x).toNat false = s.key[k] := by
  rw [hk]
  simp

/-- Settles O52: both rows of R110's table are skips under the named key, and an index above 15 is their fatal condition. -/
theorem keySkipsTestTheKey : Obligations.KeySkipsTestTheKey := by
  refine fun x s => ⟨fun k hk => ?_, fun hout => ?_⟩
  · have hin : ¬ 15 < (s.reg x).toNat := by omega
    have hskp : nextPc (.skp x) s = afterSkip s.pc (decide (s.key[k] = true)) := by
      rw [nextPc, key_getD_eq hk, Bool.decide_eq_true]
    have hsknp : nextPc (.sknp x) s = afterSkip s.pc (decide (s.key[k] = false)) := by
      rw [nextPc, key_getD_eq hk, Bool.decide_eq_false]
    exact ⟨exec_skip (if_neg hin) hskp rfl, exec_skip (if_neg hin) hsknp rfl⟩
  · exact ⟨exec_of_fatalOf_eq_some (if_pos hout), exec_of_fatalOf_eq_some (if_pos hout)⟩

/-! ### Timers (45_timers_input.md R202 to R204) -/

theorem soundActive_iff (s : State) : soundActive s = true ↔ s.ST ≠ 0 := bne_iff_ne

/-- Settles O53: each instruction writes a register or a timer, and the sound is active while `ST` is not 0. -/
theorem timerInstructionsMoveTheTimers : Obligations.TimerInstructionsMoveTheTimers := fun x s =>
  ⟨exec_setReg rfl,
    ⟨_, rfl, rfl, rfl, ((Frame.refl _ s).setDT rfl (s.reg x)).advance⟩,
    ⟨_, rfl, rfl, soundActive_iff _, rfl, ((Frame.refl _ s).setST rfl (s.reg x)).advance⟩⟩

/-! ### The key wait (45_timers_input.md R205 to R207) -/

/-- Settles O56: FX0A writes the mode. -/
theorem keyWaitSuspendsTheCore : Obligations.KeyWaitSuspendsTheCore := fun x s =>
  ⟨_, rfl, rfl, rfl, (Frame.refl _ s).setMode rfl (.awaitingKey x)⟩

section Report

variable {k : Key} {pressed : Bool} {x : Reg} {s : State}

/-- A new press while the core waits completes FX0A (45_timers_input.md R206). -/
theorem setKey_of_newPress (hm : s.mode = .awaitingKey x) (hk : s.key[k] = false) :
    setKey k true s = (((s.setKeyFlag k true).setReg x (BitVec.ofNat 8 k.val)).advance).setMode .running := by
  simp only [setKey, hm, hk, Bool.not_false, Bool.and_self, if_true]

/-- A report that is no new press to a waiting core writes its flag alone (60_exceptions.md R236). -/
theorem setKey_of_not_newPress (h : (∀ x, s.mode ≠ .awaitingKey x) ∨ pressed = false ∨ s.key[k] = true) :
    setKey k pressed s = s.setKeyFlag k pressed := by
  cases hm : s.mode with
  | running => simp only [setKey, hm]
  | halted f => simp only [setKey, hm]
  | awaitingKey x =>
    have hold : ¬ (pressed && !s.key[k]) = true := by
      rcases h with hmode | rfl | hk
      · exact absurd hm (hmode x)
      · simp
      · simp [hk]
    simp only [setKey, hm, if_neg hold]

/-- The effect of a completed key wait: the key's index fits in a byte, and every other register keeps its value. -/
theorem perform_newPress (hm : s.mode = .awaitingKey x) (hk : s.key[k] = false) :
    ∃ t, perform (.setKey k true) s = .next t ∧ t.mode = .running ∧ t.pc = s.pc + 2 ∧
      (t.reg x).toNat = k.val ∧ t.key = s.key.set k true ∧ (∀ j, j ≠ x → t.reg j = s.reg j) ∧
      t = { s with V := t.V, key := t.key, pc := t.pc, mode := t.mode } := by
  have hindex : (BitVec.ofNat 8 k.val).toNat = k.val := Nat.mod_eq_of_lt (by omega)
  refine ⟨_, congrArg Host.Outcome.next (setKey_of_newPress hm hk), rfl, rfl, ?_, rfl, fun j hj => ?_, rfl⟩
  · simpa using hindex
  · simp [hj]

end Report

/-- Settles O58: the report is a new press to a waiting core, or it is not. -/
theorem keyReportCompletesTheWaitOrSetsOneFlag : Obligations.KeyReportCompletesTheWaitOrSetsOneFlag := by
  refine fun k pressed s => ⟨?_, fun h => congrArg Host.Outcome.next (setKey_of_not_newPress h)⟩
  rintro x hm rfl hk
  obtain ⟨t, ht, hmode, hpc, hreg, hkey, -⟩ := perform_newPress hm hk
  exact ⟨t, ht, hmode, hpc, hreg, hkey⟩

/-- Settles O57: of the transactions that are no reset, a load, a step, a tick and a report that is no new press leave the
mode as it was. -/
theorem keyWaitEndsOnlyByNewPressOrReset : Obligations.KeyWaitEndsOnlyByNewPressOrReset := by
  intro p x s t hm h
  cases p with
  | reset => exact .inr (.inl rfl)
  | load image =>
    obtain rfl := load_inversion h
    exact .inl hm
  | step =>
    obtain rfl := Host.Outcome.next.inj ((step_of_mode_ne_running (by simp [hm])).symm.trans h)
    exact .inl hm
  | tick =>
    obtain rfl := Host.Outcome.next.inj h
    exact .inl hm
  | setKey k pressed =>
    by_cases hnew : pressed = true ∧ s.key[k] = false
    · obtain ⟨rfl, hk⟩ := hnew
      obtain ⟨u, hu, heffect⟩ := perform_newPress hm hk
      obtain rfl := Host.Outcome.next.inj (h.symm.trans hu)
      exact .inr (.inr ⟨k, rfl, hk, heffect⟩)
    · have hold : pressed = false ∨ s.key[k] = true := by
        rwa [not_and_or, Bool.not_eq_true, Bool.not_eq_false] at hnew
      obtain rfl := Host.Outcome.next.inj h
      rw [setKey_of_not_newPress (.inr hold)]
      exact .inl hm

end Sys2Proof.Machine
end

section
/-! PROOFS. Fatal conditions and the host's transactions (60_exceptions.md): when the core halts, from what an
instruction does to the mode; loads; that a halt lasts until a reset, from what a halted core still changes; ticks. -/

namespace Sys2Proof.Machine

/-! ### Entering the halt (60_exceptions.md R221 to R224) -/

section Halt

variable {i : Instr} {s t : State} {k : Fault}

/-- FX0A is the one instruction whose frame leaves the mode out. -/
theorem Effect.mode_cases (h : Effect i s t) : t.mode = s.mode ∨ ∃ x, i = .ldVxK x ∧ t.mode = .awaitingKey x := by
  cases i
  case ldVxK x =>
    obtain rfl := h
    exact .inr ⟨x, rfl, rfl⟩
  all_goals exact .inl (h.frame.mode_eq rfl)

/-- An instruction that halts a core records its own fatal condition. -/
theorem fatalOf_eq_some_of_halted (hsafe : s.Safe) (h : exec i s = .next t) (hhalt : t.mode = .halted k) :
    fatalOf i s = some k := by
  rcases exec_inversion h with ⟨k', hk', rfl⟩ | ⟨-, he⟩
  · cases hhalt
    exact hk'
  · rcases he.mode_cases with hm | ⟨x, -, hm⟩
    · exact absurd (hm.symm.trans hhalt) (hsafe k)
    · cases hm.symm.trans hhalt

end Halt

/-- Settles O12: an instruction is the halt with its fatal condition, or has its effect where it has none. -/
theorem fatalConditionsAreExactAndPrecise : Obligations.FatalConditionsAreExactAndPrecise := by
  refine fun i s => ⟨fun k hk => exec_of_fatalOf_eq_some hk, fun hnone => ?_⟩
  obtain ⟨t, ht, he⟩ := exec_of_fatalOf_eq_none hnone
  exact ⟨t, ht, he.mode_cases⟩

/-- Settles O14: of the kinds of step, the report of a core that does not run and the skip of an unknown word keep the
mode; the other two are the fetch that fails and the instruction that halts. -/
theorem onlyFatalConditionsHaltTheCore : Obligations.OnlyFatalConditionsHaltTheCore := by
  intro s t k hsafe hstep hhalt
  rcases step_cases s with ⟨-, hs⟩ | ⟨-, hpc, hs⟩ | ⟨-, hpc, op, rfl, ⟨e, -, hs⟩ | ⟨i, hdec, hs⟩⟩
  · obtain rfl := Host.Outcome.next.inj (hs.symm.trans hstep)
    exact absurd hhalt (hsafe k)
  · obtain rfl := Host.Outcome.next.inj (hs.symm.trans hstep)
    exact .inl ⟨hpc, (Mode.halted.inj hhalt).symm⟩
  · obtain rfl := Host.Outcome.next.inj (hs.symm.trans hstep)
    exact absurd hhalt (hsafe k)
  · obtain ⟨u, hu⟩ := exec_next i s
    rw [hu, reported_next] at hs
    obtain rfl := Host.Outcome.next.inj (hs.symm.trans hstep)
    exact .inr ⟨hpc, i, hdec, fatalOf_eq_some_of_halted hsafe hu hhalt⟩

/-! ### Loading an image (60_exceptions.md R240) -/

section Load

variable {image : List Byte} {s : State}

theorem imageFits_iff : imageFits image = true ↔ image.length ≤ 3584 := decide_eq_true_iff

theorem load_of_report_ne_none (h : s.report ≠ none) : load image s = .refused .loadAfterFirstStep :=
  if_pos (Option.isSome_iff_ne_none.2 h)

/-- Before the first step the image's length alone decides. -/
theorem load_of_report_eq_none (h : s.report = none) :
    load image s = if imageFits image then .next (s.setMem (s.mem.storeAll Config.programBase image))
      else .refused .imageTooLong :=
  if_neg (by simp [h])

end Load

/-- Settles O60: an image that fits is a run of stores from 0x200 on; the two other loads are refused. -/
theorem loadCopiesTheImage : Obligations.LoadCopiesTheImage := by
  refine fun image s => ⟨fun hreport hlen => ?_, fun hreport hlen => ?_, load_of_report_ne_none⟩
  · have hload := (load_of_report_eq_none hreport).trans (if_pos (imageFits_iff.2 hlen))
    refine ⟨_, hload, fun k hk => ?_, fun a ha => ?_, rfl⟩
    · have hread := Memory.read_storeAll_inside s.mem Config.programBase k image hk
      simpa [hk] using hread
    · exact Memory.read_storeAll_outside _ _ _ _ (by simp only [Config.programBase]; omega)
  · have hlong : ¬ imageFits image = true := by rw [imageFits_iff]; omega
    exact (load_of_report_eq_none hreport).trans (if_neg hlong)

/-! ### Leaving the halt (60_exceptions.md R225, R226) -/

/-- From `s` to `t` the timers and the key state may have changed, and nothing else. -/
def TimersAndKeysOnly (s t : State) : Prop :=
  ∃ DT ST key, t = { s with DT := DT, ST := ST, key := key }

section Halted

variable {s t : State} {k : Fault}

/-- A tick and a key report are all that still changes a halted core: a step only says again that it has halted, and a
load comes too late (decisions D16, D17, D23). -/
theorem timersAndKeysOnly_of_perform {p : Transaction} (h : perform p s = .next t) (hp : p ≠ .reset)
    (hm : s.mode = .halted k) (hreport : s.report = some (.fault k)) : TimersAndKeysOnly s t := by
  cases p with
  | reset => exact absurd rfl hp
  | load image =>
    have hrefused : load image s = .refused .loadAfterFirstStep := load_of_report_ne_none (by simp [hreport])
    cases hrefused.symm.trans h
  | step =>
    obtain ⟨u, hu, -, hsame⟩ := stepWhileHaltedChangesNothing s k hm
    obtain rfl := Host.Outcome.next.inj (hu.symm.trans h)
    exact ⟨s.DT, s.ST, s.key, hsame hreport⟩
  | tick =>
    obtain rfl := Host.Outcome.next.inj h
    exact ⟨_, _, s.key, rfl⟩
  | setKey j pressed =>
    obtain rfl := Host.Outcome.next.inj h
    exact ⟨s.DT, s.ST, _, setKey_of_not_newPress (.inl (by simp [hm]))⟩

/-- What one transaction leaves of a halted core, every run without a reset leaves of it. -/
theorem timersAndKeysOnly_of_performAll {ts : List Transaction} (h : performAll ts s = .next t)
    (hts : Transaction.reset ∉ ts) (hm : s.mode = .halted k) (hreport : s.report = some (.fault k)) :
    TimersAndKeysOnly s t := by
  induction ts generalizing s with
  | nil =>
    obtain rfl := Host.Outcome.next.inj h
    exact ⟨_, _, _, rfl⟩
  | cons p ts ih =>
    obtain ⟨hp, hts⟩ := not_or.1 (mt List.mem_cons.2 hts)
    obtain ⟨u, hu, hrun⟩ := performAll_cons_inversion h
    obtain ⟨_, _, _, rfl⟩ := timersAndKeysOnly_of_perform hu (Ne.symm hp) hm hreport
    obtain ⟨_, _, _, rfl⟩ := ih hrun hts hm hreport
    exact ⟨_, _, _, rfl⟩

end Halted

/-- Settles O15: the timers and the keys are no part of what the statement lists. -/
theorem onlyResetLeavesTheHalt : Obligations.OnlyResetLeavesTheHalt := by
  intro ts s t k hm hreport hts h
  obtain ⟨_, _, _, rfl⟩ := timersAndKeysOnly_of_performAll h hts hm hreport
  exact ⟨hm, hreport, rfl, rfl, rfl, rfl, rfl, rfl, rfl⟩

/-! ### Ticks (60_exceptions.md R232) -/

theorem countDown_toNat (v : Byte) : (countDown v).toNat = v.toNat - 1 := by
  by_cases hv : v = 0
  · subst hv
    rfl
  · rw [countDown, if_neg hv]
    bv_omega

/-- Settles O54: a tick counts each timer down. -/
theorem tickCountsDownToZero : Obligations.TickCountsDownToZero := fun s =>
  ⟨rfl, countDown_toNat s.DT, countDown_toNat s.ST, rfl⟩

/-- Settles O55, by induction on the number of ticks, the first of them taken off. -/
theorem manyTicksNeverPassZero : Obligations.ManyTicksNeverPassZero := by
  intro n
  induction n with
  | zero => exact fun s => ⟨s, rfl, rfl, rfl, rfl⟩
  | succ n ih =>
    intro s
    obtain ⟨t, ht, hDT, hST, hrest⟩ := ih (tick s)
    obtain ⟨-, hDT1, hST1, -⟩ := tickCountsDownToZero s
    exact ⟨t, ht, by omega, by omega, hrest⟩

end Sys2Proof.Machine
end
